-- ==== Sys2Proof/Word.lean ====
section
/-! DEFINITION. The word types of the block: 64-bit words, bytes, the 32-bit words of the two streams, and the
two fixed groups of 64-bit words the algorithm handles (R5, R6, R7). All are unsigned; `+`, `-` and `*` wrap. -/

namespace Sys2Proof

/-- A 64-bit word of the algorithm (R5 "word width", R7). -/
abbrev Word := BitVec 64

/-- An 8-bit byte (R8, R30). -/
abbrev Byte := BitVec 8

/-- A 32-bit word of the command stream or of the response stream (R45). -/
abbrev Word32 := BitVec 32

/-- The number g of a generator context, as the 4-bit `ctx` field carries it (R46). -/
abbrev CtxNum := BitVec 4

/-- Three 64-bit words: a compression state `S[g][0..2]` or `GS[0..2]` (R23, R68), and the working registers
A, B, C (R87). -/
structure Words3 where
  /-- Word 0, or A. -/
  w0 : Word
  /-- Word 1, or B. -/
  w1 : Word
  /-- Word 2, or C. -/
  w2 : Word
deriving DecidableEq, Repr

/-- Eight 64-bit words: a message block or the working registers X0..X7 (R67, R87, R96). -/
structure Words8 where
  /-- Word 0. -/
  x0 : Word
  /-- Word 1. -/
  x1 : Word
  /-- Word 2. -/
  x2 : Word
  /-- Word 3. -/
  x3 : Word
  /-- Word 4. -/
  x4 : Word
  /-- Word 5. -/
  x5 : Word
  /-- Word 6. -/
  x6 : Word
  /-- Word 7. -/
  x7 : Word
deriving DecidableEq, Repr

end Sys2Proof
end

