-- ==== Sys2Proof/Syntax.lean ====
section
/-! DEFINITION. The nine commands, one constructor per row of spec/opcode_table.json (R53). The payload bytes of
`SBOX_INIT` and `UPDATE` are part of the command (R30, R45); `seedSize` and `n` are their lengths (C9, R64). -/

namespace Sys2Proof

/-- A command of the block. -/
inductive Instr where
  /-- `SBOX_INIT_DEFAULT` (R54, R72). -/
  | sboxInitDefault
  /-- `SBOX_INIT passes, <seed>` (R55, R71). -/
  | sboxInit (passes : BitVec 8) (seed : List Byte)
  /-- `GEN_NEW g, passes, tiger2` (R56, R98). -/
  | genNew (g : CtxNum) (passes : BitVec 8) (tiger2 : Bool)
  /-- `GEN_RESET g` (R57, R99). -/
  | genReset (g : CtxNum)
  /-- `UPDATE_BYTE g, byte` (R58, R100). -/
  | updateByte (g : CtxNum) (byte : Byte)
  /-- `UPDATE g, <data>` (R59, R101). -/
  | update (g : CtxNum) (data : List Byte)
  /-- `FINALIZE g` (R61, R102). -/
  | finalize (g : CtxNum)
  /-- `DIGEST_READ g, idx` (R60, R120). -/
  | digestRead (g : CtxNum) (idx : BitVec 5)
  /-- `STATUS g` (R62, R121). -/
  | status (g : CtxNum)
deriving DecidableEq, Repr

/-- The payload bytes a command carries (R47); none but for `SBOX_INIT` and `UPDATE`. -/
def Instr.payload : Instr → List Byte
  | .sboxInitDefault => []
  | .sboxInit _ seed => seed
  | .genNew _ _ _ => []
  | .genReset _ => []
  | .updateByte _ _ => []
  | .update _ data => data
  | .finalize _ => []
  | .digestRead _ _ => []
  | .status _ => []

/-- The context a command names (R46); none for the two SBox commands. -/
def Instr.ctx? : Instr → Option CtxNum
  | .sboxInitDefault => none
  | .sboxInit _ _ => none
  | .genNew g _ _ => some g
  | .genReset g => some g
  | .updateByte g _ => some g
  | .update g _ => some g
  | .finalize g => some g
  | .digestRead g _ => some g
  | .status g => some g

end Sys2Proof
end

