-- ==== Sys2Proof/WellFormed.lean ====
section
/-! DEFINITION. Which commands have an encoding: the payload's length fits its field (R55, R59) and the digest
index is below 24 (R60). That the named context exists depends on the block's `NGEN` and is a check of its own. -/

namespace Sys2Proof

/-- The command can be written as words: `seedSize` in 16 bits (R55), `n` in 24 bits (R59), `idx < 24` (R60). -/
def WellFormed : Instr → Bool
  | .sboxInitDefault => true
  | .sboxInit _ seed => decide (seed.length < 2 ^ 16)
  | .genNew _ _ _ => true
  | .genReset _ => true
  | .updateByte _ _ => true
  | .update _ data => decide (data.length < 2 ^ 24)
  | .finalize _ => true
  | .digestRead _ idx => decide (idx.toNat < 24)
  | .status _ => true

/-- The context the command names exists in a block of `ngen` contexts (R53, R63 c). -/
def Instr.ctxExists (ngen : Nat) (i : Instr) : Bool :=
  match i.ctx? with
  | none => true
  | some g => decide (g.toNat < ngen)

end Sys2Proof
end

