-- ==== Sys2Proof/Decode.lean ====
section
/-! DEFINITION. The command encoding (spec file 30): the fields of a command word, how many payload words follow
it, how payload bytes are packed, the total decoder with its reasons for refusing, and the encoder. -/

namespace Sys2Proof

/-- The `op` field, bits [31:28] (R46). -/
def opOf (w : Word32) : BitVec 4 := w.extractLsb' 28 4

/-- The `ctx` field, bits [27:24] (R46). -/
def ctxOf (w : Word32) : CtxNum := w.extractLsb' 24 4

/-- The `arg` field, bits [23:0] (R46). -/
def argOf (w : Word32) : BitVec 24 := w.extractLsb' 0 24

/-- The bytes of payload that the command word announces (R47). -/
def payloadBytes (w : Word32) : Nat :=
  if opOf w = 0x2#4 then (w.extractLsb' 8 16).toNat
  else if opOf w = 0x6#4 then (w.extractLsb' 0 24).toNat
  else 0

/-- The words of payload that follow the command word (R47), legal or not. -/
def payloadWords (w : Word32) : Nat := (payloadBytes w + 3) / 4

/-- The four bytes of a stream word, lowest bits first (R48). -/
def wordBytes (w : Word32) : List Byte :=
  [w.extractLsb' 0 8, w.extractLsb' 8 8, w.extractLsb' 16 8, w.extractLsb' 24 8]

/-- The first `n` payload bytes that the words carry; the spare bytes of the last word are ignored (R48). -/
def unpackBytes (n : Nat) (ws : List Word32) : List Byte := (ws.flatMap wordBytes).take n

/-- One stream word from four bytes, first byte lowest (R48). -/
def packWord (b0 b1 b2 b3 : Byte) : Word32 := b3 ++ b2 ++ b1 ++ b0

/-- Bytes packed four to a stream word, the spare bytes of the last word 0 (R48, by its convention). -/
def packBytes : List Byte → List Word32
  | [] => []
  | [a] => [packWord a 0 0 0]
  | [a, b] => [packWord a b 0 0]
  | [a, b, c] => [packWord a b c 0]
  | a :: b :: c :: d :: rest => packWord a b c d :: packBytes rest

/-- Why a command word is illegal (R63). -/
inductive Illegal where
  /-- (a) `op` is 0x0 or 0xA to 0xF. -/
  | reservedOp
  /-- (b) `op` is 0x1 or 0x2 and `ctx` is not 0. -/
  | ctxNotZero
  /-- (d) a bit that must be 0 is 1. -/
  | reservedBits
  /-- (e) `op` is 0x8 and `idx` is 24 or more. -/
  | digestIndex
deriving DecidableEq, Repr

/-- What a command word with its payload decodes to. -/
inductive Decoded where
  /-- One of the nine commands. -/
  | command (i : Instr)
  /-- An illegal word, with the clause of R63 it falls under. -/
  | illegal (why : Illegal)
deriving DecidableEq, Repr

/-- Decoding, total on 32-bit words (R52, R53, R63). The one clause of R63 that is not decided here is (c),
`ctx < NGEN`: it depends on the block and is checked where the context is selected (`State.onCtx`). -/
def decode (w : Word32) (payload : List Word32) : Decoded :=
  if opOf w = 0x1#4 then
    if ctxOf w ≠ 0 then .illegal .ctxNotZero
    else if argOf w ≠ 0 then .illegal .reservedBits
    else .command .sboxInitDefault
  else if opOf w = 0x2#4 then
    if ctxOf w ≠ 0 then .illegal .ctxNotZero
    else .command (.sboxInit (w.extractLsb' 0 8) (unpackBytes (payloadBytes w) payload))
  else if opOf w = 0x3#4 then
    if w.extractLsb' 9 15 ≠ 0 then .illegal .reservedBits
    else .command (.genNew (ctxOf w) (w.extractLsb' 0 8) (w.getLsbD 8))
  else if opOf w = 0x4#4 then
    if argOf w ≠ 0 then .illegal .reservedBits
    else .command (.genReset (ctxOf w))
  else if opOf w = 0x5#4 then
    if w.extractLsb' 8 16 ≠ 0 then .illegal .reservedBits
    else .command (.updateByte (ctxOf w) (w.extractLsb' 0 8))
  else if opOf w = 0x6#4 then
    .command (.update (ctxOf w) (unpackBytes (payloadBytes w) payload))
  else if opOf w = 0x7#4 then
    if argOf w ≠ 0 then .illegal .reservedBits
    else .command (.finalize (ctxOf w))
  else if opOf w = 0x8#4 then
    if w.extractLsb' 5 19 ≠ 0 then .illegal .reservedBits
    else if 24 ≤ (w.extractLsb' 0 5).toNat then .illegal .digestIndex
    else .command (.digestRead (ctxOf w) (w.extractLsb' 0 5))
  else if opOf w = 0x9#4 then
    if argOf w ≠ 0 then .illegal .reservedBits
    else .command (.status (ctxOf w))
  else .illegal .reservedOp

/-- The command word with the three fields of R46. -/
def commandWord (op : BitVec 4) (ctx : CtxNum) (arg : BitVec 24) : Word32 := op ++ ctx ++ arg

/-- The command word of a command (R54 to R62). -/
def encodeHead : Instr → Word32
  | .sboxInitDefault => commandWord 0x1#4 0 0
  | .sboxInit passes seed => commandWord 0x2#4 0 (BitVec.ofNat 16 seed.length ++ passes)
  | .genNew g passes tiger2 => commandWord 0x3#4 g ((0#15 ++ BitVec.ofBool tiger2) ++ passes)
  | .genReset g => commandWord 0x4#4 g 0
  | .updateByte g byte => commandWord 0x5#4 g (0#16 ++ byte)
  | .update g data => commandWord 0x6#4 g (BitVec.ofNat 24 data.length)
  | .finalize g => commandWord 0x7#4 g 0
  | .digestRead g idx => commandWord 0x8#4 g (0#19 ++ idx)
  | .status g => commandWord 0x9#4 g 0

/-- The words of a command: its command word, then its payload words (R45). -/
def encode (i : Instr) : List Word32 := encodeHead i :: packBytes i.payload

/-- The words that a row's bits `w`, `nbits` of them, stand for: bit 0 is the least significant bit of the
command word, and the payload words that it announces follow it, their bits counted on from bit 32 and zero above
`nbits`. -/
def tableWords (nbits w : Nat) : List Word32 :=
  let v := w % 2 ^ nbits
  (List.range (1 + payloadWords (BitVec.ofNat 32 v))).map fun k => BitVec.ofNat 32 (v >>> (32 * k))

/-- The command that the decoder reads from a row's bits; none where the word is illegal. The words are stored in
the order of the stream (R45). -/
def decodeTableWord (nbits w : Nat) : Option Instr :=
  match tableWords nbits w with
  | [] => none
  | head :: payload =>
    match decode head payload with
    | .command i => some i
    | .illegal _ => none

end Sys2Proof
end

