-- ==== Sys2Proof/Config.lean ====
section
/-! DEFINITION. What one block fixes and no command changes: the parameters of R5 that the spec leaves open, the
initial constants of R9, and the free value that stands for every byte the spec leaves unspecified (R151). -/

namespace Sys2Proof

/-- The internal address spaces of R30: `TBL`, and `BUF[g]`, `DIG[g]` of each context. -/
inductive Config.Space where
  /-- The table, 8192 bytes (R32). -/
  | tbl
  /-- The pending buffer of context g, 64 bytes (R33). -/
  | buf (g : Nat)
  /-- The cached digest of context g, 24 bytes (R34). -/
  | dig (g : Nat)
deriving DecidableEq, Repr

/-- `NGEN`, the number of generator contexts at `State.reset`: "1 when nothing else is said" (R5).
DESIGN CHOICE, log 1: a state may hold any number of contexts, and no statement about every state rests on this
value. -/
def Config.ngen : Nat := 1

/-- The byte that address `a` of space `sp` holds after reset number `epoch`, until it is written: R151 leaves it
open ("any bytes whatever: possibly different after each reset"). A FREE VALUE, DESIGN CHOICE in its form, log 2:
it has no body, so nothing can be proved of it. Safe. -/
opaque Config.resetByte (epoch : Nat) (sp : Config.Space) (a : Nat) : Byte

/-- The width `HOSTW` of the host's scalar hash of a digest, open between 32 and 64 (R5, R127). -/
inductive Config.HostWidth where
  /-- A 32-bit host. -/
  | w32
  /-- A 64-bit host. -/
  | w64
deriving DecidableEq, Repr

/-- `HOSTW` as a number of bits (R5). -/
def Config.HostWidth.bits : Config.HostWidth → Nat
  | .w32 => 32
  | .w64 => 64

/-- `IV[0..2]`, the three initial constants of the compression state (R9). -/
def Config.iv : Words3 := ⟨0x0123456789ABCDEF, 0xFEDCBA9876543210, 0xF096A5B4C3B2E187⟩

end Sys2Proof
end

