-- ==== Sys2Proof/Machine/State.lean ====
section
/-! DEFINITION. The state of the block as plain data: the table, the two block-wide registers and the per-context
registers of spec file 10, the two streams that join it to the host (R45), and the number of the reset draw (R151). -/

namespace Sys2Proof.Machine

/-- One internal address space (R30): the bytes written since reset, by strictly rising address. An address that
is not listed holds the unspecified byte it had after reset (R151, log 2). -/
abbrev Memory := List Host.Cell

/-- What the host does to the block (R45, R150): it delivers a word, or it asserts reset. -/
inductive HostEvent where
  /-- A 32-bit word of the command stream. -/
  | word (w : Word32)
  /-- The reset event. -/
  | reset
deriving DecidableEq, Repr

/-- The fault codes of R130 other than `OK`. -/
inductive ErrCode where
  /-- `ERR_ILLEGAL_CMD` (R132). -/
  | illegalCmd
  /-- `ERR_SBOX_INVALID` (R133). -/
  | sboxInvalid
  /-- `ERR_FINALIZED` (R134). -/
  | finalized
  /-- `ERR_NO_DIGEST` (R135). -/
  | noDigest
deriving DecidableEq, Repr

/-- The registers of one generator context g (R19 to R25). -/
structure GenCtx where
  /-- `COUNT[g]`, the byte counter (R19). -/
  count : BitVec 64
  /-- `PASSES[g]`, the pass count (R20). -/
  passes : BitVec 8
  /-- `TIGER2[g]`, the padding mode (R21). -/
  tiger2 : Bool
  /-- `FINALIZED[g]`, Active or Finalized (R22). -/
  finalized : Bool
  /-- `S[g][0..2]`, the compression state (R23). -/
  st : Words3
  /-- `BUF[g]`, the pending buffer (R24). -/
  buf : Memory
  /-- `DIG[g]`, the cached digest (R25). -/
  dig : Memory
deriving DecidableEq, Repr

/-- A context after the reset event (R28); `BUF[g]` and `DIG[g]` unspecified. -/
def GenCtx.reset : GenCtx where
  count := 0
  passes := 3
  tiger2 := false
  finalized := false
  st := Config.iv
  buf := []
  dig := []

/-- The state of the block, and of its streams. -/
structure State where
  /-- `TBL`, the table (R16). -/
  tbl : Memory
  /-- `SBOX_VALID` (R17). -/
  sboxValid : Bool
  /-- `FAULT`, the sticky code of the first fault since reset (R18). -/
  fault : BitVec 4
  /-- The generator contexts 0..NGEN-1; the length is `NGEN` (R5). -/
  ctxs : List GenCtx
  /-- The model's own: what the host has delivered and the block has not yet taken, oldest first (R45, log 3). -/
  inp : List HostEvent
  /-- The model's own: the response stream, oldest first (R45, log 3). -/
  out : List Word32
  /-- The model's own: how many reset events there have been; it numbers the draw of R151 (log 2). -/
  epoch : Nat
deriving DecidableEq, Repr

/-- A block with `ngen` contexts right after power-on reset (R28, R150), nothing delivered and nothing answered. -/
def State.resetWith (ngen : Nat) : State where
  tbl := []
  sboxValid := false
  fault := 0
  ctxs := List.replicate ngen GenCtx.reset
  inp := []
  out := []
  epoch := 0

/-- The machine right after reset (R28), with the default number of contexts (R5). -/
def State.reset : State := State.resetWith Config.ngen

/-- Why the machine would stop. EMPTY: nobody raises one, which is safe. Every fault of the spec refuses one command and the block
goes on with the next (R131, R157), so each is a next state of this model; no address is out of range (R35). -/
inductive Fault where
deriving DecidableEq, Repr

/-- Why a command has no meaning. -/
inductive Refusal where
  /-- An arm of `exec` whose command has no meaning yet raises it; safe, since nothing can be proved of a next
  state then. No arm of this model does. -/
  | notModelled (mnemonic : String)
deriving DecidableEq, Repr

/-- What a meaning answers. -/
abbrev Answer := Host.Outcome State Fault Refusal

end Sys2Proof.Machine
end

