-- ==== Sys2Proof/Machine/Ops.lean ====
section
/-! DEFINITION. The named operations: byte order (R31), the internal address spaces (R30), answering a command
(R49), refusing one (R131), selecting a context, and the reset event (R150). A fault transfers control nowhere and
nothing returns from it (R138, R139), so `State.raise` is the whole of taking an exception.

`evalNat`, `evalBits` and `evalWords3` change no value (`Sys2Proof.Laws.evalNat_eq` and its companions): they only
make an evaluator compute a number before it goes on, so that long runs stay within its stack. -/

namespace Sys2Proof.Machine

/-- `k n`, with `n` computed first. -/
@[inline] def evalNat {α : Type} (n : Nat) (k : Nat → α) : α :=
  match n with
  | 0 => k 0
  | m + 1 => k (m + 1)

/-- `k x`, with `x` computed first. -/
@[inline] def evalBits {α : Type} {w : Nat} (x : BitVec w) (k : BitVec w → α) : α :=
  evalNat x.toNat fun n => k (BitVec.ofNat w n)

/-- `k v`, with the three words computed first. -/
@[inline] def evalWords3 {α : Type} (v : Words3) (k : Words3 → α) : α :=
  evalBits v.w0 fun w0 => evalBits v.w1 fun w1 => evalBits v.w2 fun w2 => k ⟨w0, w1, w2⟩

/-- `byte(w, j)`, byte `j` of a word, byte 0 the least significant (R6). -/
def byteOf (w : Word) (j : Nat) : Byte := w.extractLsb' (8 * j) 8

/-- The eight bytes of a word, least significant first: `LE64` (R105, R31). -/
def wordToBytes (w : Word) : List Byte := (List.range 8).map (byteOf w)

/-- The word whose byte `j` is `f j`: the sum of `f j << (8*j)` (R31). -/
def wordFromBytes (f : Nat → Byte) : Word :=
  f 7 ++ f 6 ++ f 5 ++ f 4 ++ f 3 ++ f 2 ++ f 1 ++ f 0

/-- What has been written at address `a`, if anything has. -/
def Memory.lookup : Memory → Nat → Option Byte
  | [], _ => none
  | (k, b) :: rest, a => if k = a then some b else Memory.lookup rest a

/-- `MemRead(space, a, 1)` (R8). `junk` is what the space held after reset; an unlisted address still holds it. -/
def Memory.read (junk : Nat → Byte) (m : Memory) (a : Nat) : Byte := (m.lookup a).getD (junk a)

/-- `MemRead(space, a, 8)`, little-endian (R8, R31). -/
def Memory.read8 (junk : Nat → Byte) (m : Memory) (a : Nat) : Word :=
  wordFromBytes fun j => m.read junk (a + j)

/-- `MemWrite(space, a, 1, b)` (R8), keeping the addresses strictly rising. -/
def Memory.write : Memory → Nat → Byte → Memory
  | [], a, b => [(a, b)]
  | (k, c) :: rest, a, b =>
    if a < k then (a, b) :: (k, c) :: rest
    else if a = k then (a, b) :: rest
    else (k, c) :: Memory.write rest a b

/-- The bytes `bs` written at addresses `a`, `a + 1`, and so on. -/
def Memory.writeBytes (m : Memory) (a : Nat) : List Byte → Memory
  | [] => m
  | b :: bs => Memory.writeBytes (m.write a b) (a + 1) bs

/-- `MemWrite(space, a, 8, w)`, little-endian (R8, R31). -/
def Memory.write8 (m : Memory) (a : Nat) (w : Word) : Memory := m.writeBytes a (wordToBytes w)

/-- `k m`, with every cell of `m` computed first. -/
def evalMemory {α : Type} : Memory → (Memory → α) → α
  | [], k => k []
  | (a, b) :: rest, k => evalNat a fun a => evalBits b fun b => evalMemory rest fun rest => k ((a, b) :: rest)

/-- The addresses rise strictly, and each is at least `lo` and below `size`. -/
def Memory.wfFrom (size : Nat) : Nat → Memory → Bool
  | _, [] => true
  | lo, (k, _) :: rest => decide (lo ≤ k) && decide (k < size) && Memory.wfFrom size (k + 1) rest

/-- The canonical form of an address space of `size` bytes: addresses strictly rising, all in range (log 2). -/
def Memory.wf (size : Nat) (m : Memory) : Bool := Memory.wfFrom size 0 m

/-- What `TBL` held after the last reset (R151): the free value. -/
def State.tblJunk (s : State) : Nat → Byte := Config.resetByte s.epoch .tbl

/-- What `BUF[g]` held after the last reset (R151): the free value. -/
def State.bufJunk (s : State) (g : CtxNum) : Nat → Byte := Config.resetByte s.epoch (.buf g.toNat)

/-- What `DIG[g]` held after the last reset (R151): the free value. -/
def State.digJunk (s : State) (g : CtxNum) : Nat → Byte := Config.resetByte s.epoch (.dig g.toNat)

/-- The 4-bit code of a fault (R130). -/
def ErrCode.code : ErrCode → BitVec 4
  | .illegalCmd => 1
  | .sboxInvalid => 2
  | .finalized => 3
  | .noDigest => 4

/-- The status word of a response: the code in bits [3:0], the rest 0 (R49). -/
def statusWord (code : BitVec 4) : Word32 := code.setWidth 32

/-- `respond OK` with data words (R49, R50). -/
def State.respond (s : State) (data : List Word32) : State :=
  { s with out := s.out ++ statusWord 0 :: data }

/-- `raise e` (R131): the sticky register takes the code if it is 0, the response is the code alone, and nothing
else changes. -/
def State.raise (s : State) (e : ErrCode) : State :=
  { s with
    fault := if s.fault = 0 then e.code else s.fault
    out := s.out ++ [statusWord e.code] }

/-- `NGEN` (R5). -/
def State.ngen (s : State) : Nat := s.ctxs.length

/-- The registers of context g, if the block has one (R5). -/
def State.ctx? (s : State) (g : CtxNum) : Option GenCtx := s.ctxs[g.toNat]?

/-- The registers of context g replaced. -/
def State.setCtx (s : State) (g : CtxNum) (c : GenCtx) : State :=
  { s with ctxs := s.ctxs.set g.toNat c }

/-- Select context g and go on with `f`; a context that the block does not have makes the command illegal
(R63 c), which is found before anything else (R132, R136). -/
def State.onCtx (s : State) (g : CtxNum) (f : GenCtx → State) : State :=
  match s.ctx? g with
  | none => s.raise .illegalCmd
  | some c => f c

/-- The reset event (R150, R28, log 4): every register at its reset value, the bulk storage unspecified anew
(R151), and `rest` of the stream still to come. What has been answered stays answered. -/
def State.hostReset (s : State) (rest : List HostEvent) : State where
  tbl := []
  sboxValid := false
  fault := 0
  ctxs := List.replicate s.ngen GenCtx.reset
  inp := rest
  out := s.out
  epoch := s.epoch + 1

end Sys2Proof.Machine
end

