-- ==== Sys2Proof/Machine/Table.lean ====
section
/-! DEFINITION. The table as one value inside a command: four sub-tables of 256 words (R16, R32), how it is read
from `TBL` and written back, and the lookups of R81. A command is atomic (R38), so a command that reads `TBL` may
read it once at its start, and `SBOX_INIT*`, which depends on no earlier content (R76), may write it once at its
end (log 5). -/

namespace Sys2Proof.Machine

/-- One sub-table: 2048 bytes, byte `a` at bits [8a+7:8a], so that word `v` is bits [64v+63:64v] (R31, R32). -/
abbrev SubTable := BitVec 16384

/-- The four sub-tables (R16). -/
structure Table where
  /-- Words 0 to 255. -/
  t0 : SubTable
  /-- Words 256 to 511. -/
  t1 : SubTable
  /-- Words 512 to 767. -/
  t2 : SubTable
  /-- Words 768 to 1023. -/
  t3 : SubTable
deriving DecidableEq, Repr

/-- The byte at address `a` (0..2047) of a sub-table (R32). -/
def SubTable.byte (u : SubTable) (a : Nat) : Byte := u.extractLsb' (8 * a) 8

/-- The word of index `v` (0..255) of a sub-table (R32). -/
def SubTable.word (u : SubTable) (v : Nat) : Word := u.extractLsb' (64 * v) 64

/-- A sub-table with the byte at address `a` replaced. -/
def SubTable.setByte (u : SubTable) (a : Nat) (b : Byte) : SubTable :=
  (u &&& ~~~((0xFF#16384) <<< (8 * a))) ||| (b.setWidth 16384 <<< (8 * a))

/-- The number whose 64-bit digits, lowest first, are the words. -/
def wordsToNat : List Word → Nat
  | [] => 0
  | w :: ws => w.toNat + 2 ^ 64 * wordsToNat ws

/-- A sub-table from its 256 words, word 0 first. -/
def SubTable.ofWords (ws : List Word) : SubTable := BitVec.ofNat 16384 (wordsToNat ws)

/-- Sub-table number `i` (0..3). -/
def Table.sub (t : Table) : Nat → SubTable
  | 0 => t.t0
  | 1 => t.t1
  | 2 => t.t2
  | _ => t.t3

/-- Sub-table number `i` (0..3) replaced. -/
def Table.setSub (t : Table) (i : Nat) (u : SubTable) : Table :=
  match i with
  | 0 => { t with t0 := u }
  | 1 => { t with t1 := u }
  | 2 => { t with t2 := u }
  | _ => { t with t3 := u }

/-- `SB(i, v) = T[256*i + v]` (R81). -/
def Table.sb (t : Table) (i : Nat) (v : Byte) : Word := (t.sub i).word v.toNat

/-- `T[i]`, the word of index `i` (0..1023) (R8). -/
def Table.word (t : Table) (i : Nat) : Word := (t.sub (i / 256)).word (i % 256)

/-- The byte at address `a` (0..8191) of `TBL` (R32). -/
def Table.byte (t : Table) (a : Nat) : Byte := (t.sub (a / 2048)).byte (a % 2048)

/-- The bytes at addresses `a` to `a + n - 1`, read in one walk along the listed cells. -/
def Memory.dump (junk : Nat → Byte) : Memory → Nat → Nat → List Byte
  | _, _, 0 => []
  | [], a, n + 1 => junk a :: Memory.dump junk [] (a + 1) n
  | (k, b) :: rest, a, n + 1 =>
    if k = a then b :: Memory.dump junk rest (a + 1) n
    else junk a :: Memory.dump junk ((k, b) :: rest) (a + 1) n

/-- Bytes taken eight at a time as little-endian words (R31). -/
def wordsOfBytes : List Byte → List Word
  | b0 :: b1 :: b2 :: b3 :: b4 :: b5 :: b6 :: b7 :: rest =>
    (b7 ++ b6 ++ b5 ++ b4 ++ b3 ++ b2 ++ b1 ++ b0) :: wordsOfBytes rest
  | _ => []

/-- The 2048 bytes of `TBL` from address `2048*i` on, as sub-table `i` (R32). -/
def Memory.subTable (junk : Nat → Byte) (m : Memory) (i : Nat) : SubTable :=
  SubTable.ofWords (wordsOfBytes
    (Memory.dump junk (m.dropWhile fun c => decide (c.1 < 2048 * i)) (2048 * i) 2048))

/-- The table that the address space `TBL` holds (R16, R32). -/
def Memory.table (junk : Nat → Byte) (m : Memory) : Table :=
  ⟨m.subTable junk 0, m.subTable junk 1, m.subTable junk 2, m.subTable junk 3⟩

/-- The address space `TBL` with every byte of the table written (R32). -/
def Table.toMemory (t : Table) : Memory := (List.range' 0 8192).map fun a => (a, t.byte a)

/-- The table a command finds in `TBL`. -/
def State.table (s : State) : Table := s.tbl.table s.tblJunk

/-- `k t`, with the four sub-tables computed first. -/
@[inline] def evalTable {α : Type} (t : Table) (k : Table → α) : α :=
  evalBits t.t0 fun t0 => evalBits t.t1 fun t1 => evalBits t.t2 fun t2 => evalBits t.t3 fun t3 =>
    k ⟨t0, t1, t2, t3⟩

end Sys2Proof.Machine
end

