-- ==== Sys2Proof/Machine/Compress.lean ====
section
/-! DEFINITION. The compression function (spec file 41): Round, Pass, Schedule, the additional passes and
`Compress`. Every function here returns values and writes no state (R80, R89). -/

namespace Sys2Proof.Machine

/-- `K0` of the key schedule (R84). -/
def scheduleK0 : Word := 0xA5A5A5A5A5A5A5A5

/-- `K1` of the key schedule (R84). -/
def scheduleK1 : Word := 0x0123456789ABCDEF

/-- The four lookups that Round subtracts from its first word: sub-tables 0 to 3 at bytes 0, 2, 4, 6 (R82). -/
def evenLookups (t : Table) (c : Word) : Word :=
  t.sb 0 (byteOf c 0) ^^^ t.sb 1 (byteOf c 2) ^^^ t.sb 2 (byteOf c 4) ^^^ t.sb 3 (byteOf c 6)

/-- The four lookups that Round adds to its second word: sub-tables 3 to 0 at bytes 1, 3, 5, 7 (R82). -/
def oddLookups (t : Table) (c : Word) : Word :=
  t.sb 3 (byteOf c 1) ^^^ t.sb 2 (byteOf c 3) ^^^ t.sb 1 (byteOf c 5) ^^^ t.sb 0 (byteOf c 7)

/-- `Round(a, b, c, x, mul)`, the three results in the order of the three roles (R82). -/
def round (t : Table) (a b c x mul : Word) : Words3 :=
  let c' := c ^^^ x
  ⟨a - evenLookups t c', (b + oddLookups t c') * mul, c'⟩

/-- `Pass(a, b, c, X, mul)`: eight rounds, the roles cycling, the results under the names a, b, c (R83). -/
def pass (t : Table) (a b c : Word) (x : Words8) (mul : Word) : Words3 :=
  let ⟨a, b, c⟩ := round t a b c x.x0 mul
  let ⟨b, c, a⟩ := round t b c a x.x1 mul
  let ⟨c, a, b⟩ := round t c a b x.x2 mul
  let ⟨a, b, c⟩ := round t a b c x.x3 mul
  let ⟨b, c, a⟩ := round t b c a x.x4 mul
  let ⟨c, a, b⟩ := round t c a b x.x5 mul
  let ⟨a, b, c⟩ := round t a b c x.x6 mul
  let ⟨b, c, a⟩ := round t b c a x.x7 mul
  ⟨a, b, c⟩

/-- `Schedule(X)`, its sixteen statements in order; the shifts are logical (R84). -/
def schedule (x : Words8) : Words8 :=
  let x0 := x.x0 - (x.x7 ^^^ scheduleK0)
  let x1 := x.x1 ^^^ x0
  let x2 := x.x2 + x1
  let x3 := x.x3 - (x2 ^^^ ((~~~x1) <<< 19))
  let x4 := x.x4 ^^^ x3
  let x5 := x.x5 + x4
  let x6 := x.x6 - (x5 ^^^ ((~~~x4) >>> 23))
  let x7 := x.x7 ^^^ x6
  let x0 := x0 + x7
  let x1 := x1 - (x0 ^^^ ((~~~x7) <<< 19))
  let x2 := x2 ^^^ x1
  let x3 := x3 + x2
  let x4 := x4 - (x3 ^^^ ((~~~x2) >>> 23))
  let x5 := x5 ^^^ x4
  let x6 := x6 + x5
  let x7 := x7 - (x6 ^^^ scheduleK1)
  ⟨x0, x1, x2, x3, x4, x5, x6, x7⟩

/-- `k x`, with the eight words computed first. -/
@[inline] def evalWords8 {α : Type} (x : Words8) (k : Words8 → α) : α :=
  evalBits x.x0 fun x0 => evalBits x.x1 fun x1 => evalBits x.x2 fun x2 => evalBits x.x3 fun x3 =>
  evalBits x.x4 fun x4 => evalBits x.x5 fun x5 => evalBits x.x6 fun x6 => evalBits x.x7 fun x7 =>
    k ⟨x0, x1, x2, x3, x4, x5, x6, x7⟩

/-- `n` additional passes on A, B, C and X: each a schedule, a pass with multiplier 9 and the rotation
`tmp = A; A = C; C = B; B = tmp` (R85, R87). -/
def extraPasses (t : Table) : Nat → Words3 → Words8 → Words3
  | 0, v, _ => v
  | n + 1, v, x =>
    evalWords8 (schedule x) fun x =>
    evalWords3 (pass t v.w0 v.w1 v.w2 x 9) fun v =>
    extraPasses t n ⟨v.w2, v.w0, v.w1⟩ x

/-- The pass sequence of R85 and R87 for `passes` passes, at least three (R88): the working registers A, B, C. -/
def passSequence (t : Table) (st : Words3) (blk : Words8) (passes : Nat) : Words3 :=
  let ⟨a, b, c⟩ := pass t st.w0 st.w1 st.w2 blk 5
  let x := schedule blk
  let ⟨c, a, b⟩ := pass t c a b x 7
  let x := schedule x
  let ⟨b, c, a⟩ := pass t b c a x 9
  extraPasses t (max 3 passes - 3) ⟨a, b, c⟩ x

/-- The feed-forward (R86). -/
def feedForward (v st : Words3) : Words3 := ⟨v.w0 ^^^ st.w0, v.w1 - st.w1, v.w2 + st.w2⟩

/-- `Compress(st, blk, TBL, passes)` (R87). -/
def compress (t : Table) (st : Words3) (blk : Words8) (passes : Nat) : Words3 :=
  feedForward (passSequence t st blk passes) st

end Sys2Proof.Machine
end

