-- ==== Sys2Proof/Machine/Operands.lean ====
section
/-! DEFINITION. The operand values that a command's semantics changes before use: the clamped pass count (R20, R88,
R98) and the marker byte that the padding mode selects (R21, R102). Every other operand is used as it stands (R46). -/

namespace Sys2Proof.Machine

/-- `max(3, passes)`, the pass count that `GEN_NEW` stores (R98). -/
def clampPasses (p : BitVec 8) : BitVec 8 := if p < 3#8 then 3#8 else p

/-- The marker byte, the first byte of the padding (R21, R102). -/
def markerByte (tiger2 : Bool) : Byte := if tiger2 then 0x80 else 0x01

end Sys2Proof.Machine
end

