-- ==== Sys2Proof/Machine/Flags.lean ====
section
/-! DEFINITION. The status bits. There are no arithmetic flags (R15): the status bits are `FAULT`, `SBOX_VALID`,
`FINALIZED[g]` and `TIGER2[g]`, shown together with the pass count and the buffer fill in the status image (R121). -/

namespace Sys2Proof.Machine

/-- `COUNT[g] mod 64`, the position of the next byte and the fill field of the status image (R19, R121). -/
def GenCtx.fill (c : GenCtx) : Nat := c.count.toNat % 64

/-- The status image of R121: bits [3:0] FAULT, [4] SBOX_VALID, [5] FINALIZED, [6] TIGER2, [7] 0, [15:8] PASSES,
[21:16] COUNT mod 64, [31:22] 0. -/
def statusImage (s : State) (c : GenCtx) : Word32 :=
  0#10 ++ BitVec.ofNat 6 c.fill ++ c.passes ++ 0#1 ++ BitVec.ofBool c.tiger2 ++ BitVec.ofBool c.finalized ++
    BitVec.ofBool s.sboxValid ++ s.fault

end Sys2Proof.Machine
end

