-- ==== Sys2Proof/Machine/Generator.lean ====
section
/-! DEFINITION. The streaming padding engine (spec file 42): block assembly, the byte-store step, padding and
serialisation, and the meanings of `GEN_NEW`, `GEN_RESET`, `UPDATE_BYTE`, `UPDATE` and `FINALIZE`. In the functions
on one context, `t` is the table the command finds in `TBL` and `junk` what the context's `BUF` held after reset. -/

namespace Sys2Proof.Machine

/-- The eight block words, the buffer read as little-endian words (R96, R33). -/
def GenCtx.block (junk : Nat → Byte) (c : GenCtx) : Words8 :=
  ⟨c.buf.read8 junk 0, c.buf.read8 junk 8, c.buf.read8 junk 16, c.buf.read8 junk 24,
   c.buf.read8 junk 32, c.buf.read8 junk 40, c.buf.read8 junk 48, c.buf.read8 junk 56⟩

/-- `CompressBuffer(g)` (R96). -/
def GenCtx.compressBuffer (t : Table) (junk : Nat → Byte) (c : GenCtx) : GenCtx :=
  { c with st := evalTable t fun t => compress t c.st (c.block junk) c.passes.toNat }

/-- The buffer is full and waits to be compressed: the condition of the byte-store step (R97). -/
def GenCtx.fullPending (c : GenCtx) : Bool := decide (c.count ≠ 0) && decide (c.fill = 0)

/-- `StoreByte(g, b)` (R97): first compress the previous full buffer, then store and count (R109). -/
def GenCtx.storeByte (t : Table) (junk : Nat → Byte) (c : GenCtx) (b : Byte) : GenCtx :=
  let c := if c.fullPending then c.compressBuffer t junk else c
  { c with buf := c.buf.write c.fill b, count := c.count + 1 }

/-- `k c`, with everything that `storeByte` changes computed first. -/
@[inline] def evalGenCtx {α : Type} (c : GenCtx) (k : GenCtx → α) : α :=
  evalBits c.count fun count => evalWords3 c.st fun st => evalMemory c.buf fun buf =>
    k ⟨count, c.passes, c.tiger2, c.finalized, st, buf, c.dig⟩

/-- `StoreByte` of each byte, in order (R101, R103). -/
def GenCtx.storeBytes (t : Table) (junk : Nat → Byte) (c : GenCtx) : List Byte → GenCtx
  | [] => c
  | b :: bs => evalGenCtx (c.storeByte t junk b) fun c => GenCtx.storeBytes t junk c bs

/-- COUNT, S and FINALIZED as a new message finds them (R98, R99, D17). -/
def GenCtx.restart (c : GenCtx) : GenCtx := { c with count := 0, st := Config.iv, finalized := false }

/-- `bitLength`, 8 times the counter modulo 2^64 (R102 step 1, R109). -/
def GenCtx.bitLength (c : GenCtx) : Word := 8 * c.count

/-- The zero bytes of the padding, appended to a context that has taken its marker byte (R102 step 3). -/
def GenCtx.padZeros (t : Table) (junk : Nat → Byte) (c : GenCtx) : GenCtx :=
  let remain := 64 - c.fill
  if 8 ≤ remain then c.storeBytes t junk (List.replicate (remain - 8) 0)
  else (c.storeBytes t junk (List.replicate remain 0)).storeBytes t junk (List.replicate 56 0)

/-- Steps 1 to 4 of `FINALIZE`: the marker, the zeros and the length appended (R102). -/
def GenCtx.pad (t : Table) (junk : Nat → Byte) (c : GenCtx) : GenCtx :=
  let marked := c.storeByte t junk (markerByte c.tiger2)
  (marked.padZeros t junk).storeBytes t junk (wordToBytes c.bitLength)

/-- The digest of a state: the three words written to `DIG[g]`, least significant byte first (R116, R34). -/
def serialise (dig : Memory) (st : Words3) : Memory :=
  ((dig.write8 0 st.w0).write8 8 st.w1).write8 16 st.w2

/-- Steps 6 and 7 of `FINALIZE`: the last block compressed, the context Finalized, the digest cached (R102). -/
def GenCtx.seal (t : Table) (junk : Nat → Byte) (c : GenCtx) : GenCtx :=
  let last := c.compressBuffer t junk
  { last with finalized := true, dig := serialise last.dig last.st }

/-- The 24 bytes of `DIG[g]` (R115). -/
def GenCtx.digest (digJunk : Nat → Byte) (c : GenCtx) : List Byte := (List.range 24).map (c.dig.read digJunk)

/-- The two checks of `UPDATE_BYTE` and `UPDATE`, in the order of R136, before the first byte (R100, R101). -/
def State.acceptBytes (s : State) (g : CtxNum) (data : List Byte) : State :=
  s.onCtx g fun c =>
    if !s.sboxValid then s.raise .sboxInvalid
    else if c.finalized then s.raise .finalized
    else (s.setCtx g (c.storeBytes s.table (s.bufJunk g) data)).respond []

/-- `GEN_NEW g, passes, tiger2` (R98). -/
def execGenNew (g : CtxNum) (passes : BitVec 8) (tiger2 : Bool) (s : State) : Answer :=
  .next <| s.onCtx g fun c =>
    (s.setCtx g { c.restart with passes := clampPasses passes, tiger2 := tiger2 }).respond []

/-- `GEN_RESET g` (R99). -/
def execGenReset (g : CtxNum) (s : State) : Answer :=
  .next <| s.onCtx g fun c => (s.setCtx g c.restart).respond []

/-- `UPDATE_BYTE g, byte` (R100). -/
def execUpdateByte (g : CtxNum) (byte : Byte) (s : State) : Answer := .next (s.acceptBytes g [byte])

/-- `UPDATE g, <data>` (R101). -/
def execUpdate (g : CtxNum) (data : List Byte) (s : State) : Answer := .next (s.acceptBytes g data)

/-- `FINALIZE g` (R102): the table check in both states; a Finalized context answers its cached digest and changes
nothing (R104); an Active one pads, compresses, serialises and answers the 24 bytes (R50). -/
def execFinalize (g : CtxNum) (s : State) : Answer :=
  .next <| s.onCtx g fun c =>
    if !s.sboxValid then s.raise .sboxInvalid
    else if c.finalized then s.respond (packBytes (c.digest (s.digJunk g)))
    else
      let done := (c.pad s.table (s.bufJunk g)).seal s.table (s.bufJunk g)
      (s.setCtx g done).respond (packBytes (done.digest (s.digJunk g)))

end Sys2Proof.Machine
end

