-- ==== Sys2Proof/Machine/Digest.lean ====
section
/-! DEFINITION. The two read-only commands, `DIGEST_READ` and `STATUS` (spec file 43). -/

namespace Sys2Proof.Machine

/-- `DIGEST_READ g, idx` (R120); an index of 24 or more is illegal before anything else (R63 e, R136). -/
def execDigestRead (g : CtxNum) (idx : BitVec 5) (s : State) : Answer :=
  .next <|
    if 24 ≤ idx.toNat then s.raise .illegalCmd
    else s.onCtx g fun c =>
      if c.finalized then s.respond [(c.dig.read (s.digJunk g) idx.toNat).setWidth 32]
      else s.raise .noDigest

/-- `STATUS g` (R121). -/
def execStatus (g : CtxNum) (s : State) : Answer :=
  .next <| s.onCtx g fun c => s.respond [statusImage s c]

end Sys2Proof.Machine
end

