-- ==== Sys2Proof/Machine/SBox.lean ====
section
/-! DEFINITION. SBox generation (spec file 40) and the meanings of `SBOX_INIT_DEFAULT` and `SBOX_INIT`. -/

namespace Sys2Proof.Machine

/-- The table after the fill step: every byte of word `i` is `i & 0xFF` (R66). -/
def fillTable : Table :=
  let u := SubTable.ofWords ((List.range 256).map fun i => BitVec.ofNat 64 (i * 0x0101010101010101))
  ⟨u, u, u, u⟩

/-- Byte `p` of the working block: the seed byte, or 0 past the seed's end (R67). -/
def seedByte (seed : List Byte) (p : Nat) : Byte := (seed[p]?).getD 0

/-- Word `k` of the working block (R67). -/
def seedWord (seed : List Byte) (k : Nat) : Word := wordFromBytes fun j => seedByte seed (8 * k + j)

/-- The working block `W[0..7]`; seed bytes 64 and beyond are ignored (R67). -/
def seedBlock (seed : List Byte) : Words8 :=
  ⟨seedWord seed 0, seedWord seed 1, seedWord seed 2, seedWord seed 3,
   seedWord seed 4, seedWord seed 5, seedWord seed 6, seedWord seed 7⟩

/-- Word `k` (0..2) of a state. -/
def Words3.get (v : Words3) : Nat → Word
  | 0 => v.w0
  | 1 => v.w1
  | _ => v.w2

/-- Exchange the bytes at addresses `p` and `q` of a sub-table (R70). -/
def swapBytes (u : SubTable) (p q : Nat) : SubTable :=
  let tmp := u.byte p
  (u.setByte p (u.byte q)).setByte q tmp

/-- `SwapLanes` on the sub-table of the current position: for each lane, entry `i` and the entry that the state
word's byte selects exchange that lane (R70). -/
def swapLanes (u : SubTable) (i : Nat) (selector : Word) : SubTable :=
  (List.range 8).foldl (fun u col => swapBytes u (8 * i + col) (8 * (byteOf selector col).toNat + col)) u

/-- What the permutation loop carries: the rolling counter, `GS` and the table (R27, R69). -/
structure GenLoop where
  /-- `abc`, the rolling counter. -/
  abc : Nat
  /-- `GS[0..2]`. -/
  gs : Words3
  /-- The table as it now stands. -/
  tab : Table
deriving DecidableEq, Repr

/-- The state at the start of the loop: counter 2, `GS = IV`, the fill pattern (R66, R68, R69). -/
def GenLoop.start : GenLoop := ⟨2, Config.iv, fillTable⟩

/-- The counter update and the compression of every third inner iteration (R69). -/
def GenLoop.advance (w : Words8) (l : GenLoop) : GenLoop :=
  if l.abc + 1 = 3 then { l with abc := 0, gs := compress l.tab l.gs w 3 }
  else { l with abc := l.abc + 1 }

/-- The swap of one inner iteration, position `i` of sub-table `s` (R69, R70). -/
def GenLoop.swap (l : GenLoop) (i s : Nat) : GenLoop :=
  { l with tab := l.tab.setSub s (swapLanes (l.tab.sub s) i (Words3.get l.gs l.abc)) }

/-- Inner iteration number `n` of the whole run: sub-table `n mod 4`, position `(n div 4) mod 256` (R69). -/
def GenLoop.inner (w : Words8) (l : GenLoop) (n : Nat) : GenLoop :=
  (l.advance w).swap (n / 4 % 256) (n % 4)

/-- `k l`, with everything in `l` computed first. -/
@[inline] def evalGenLoop {α : Type} (l : GenLoop) (k : GenLoop → α) : α :=
  evalNat l.abc fun abc => evalWords3 l.gs fun gs => evalTable l.tab fun tab => k ⟨abc, gs, tab⟩

/-- Inner iterations number `n`, `n + 1`, ..., `count` of them, in order (R69). -/
def GenLoop.run (w : Words8) : Nat → Nat → GenLoop → GenLoop
  | 0, _, l => l
  | count + 1, n, l => evalGenLoop (l.inner w n) fun l => GenLoop.run w count (n + 1) l

/-- `SBoxGenerate(seed, seedSize, passes)`: `passes` outer by 256 middle by 4 inner iterations (R69); with
`passes = 0` the fill pattern (R74). -/
def sboxGenerate (seed : List Byte) (passes : Nat) : Table :=
  (GenLoop.run (seedBlock seed) (passes * 1024) 0 GenLoop.start).tab

/-- `DEFAULT_SEED`, the 64 ASCII bytes "Tiger - A Fast New Hash Function, by Ross Anderson and Eli Biham" (R72). -/
def defaultSeed : List Byte :=
  [0x54, 0x69, 0x67, 0x65, 0x72, 0x20, 0x2D, 0x20, 0x41, 0x20, 0x46, 0x61, 0x73, 0x74, 0x20, 0x4E,
   0x65, 0x77, 0x20, 0x48, 0x61, 0x73, 0x68, 0x20, 0x46, 0x75, 0x6E, 0x63, 0x74, 0x69, 0x6F, 0x6E,
   0x2C, 0x20, 0x62, 0x79, 0x20, 0x52, 0x6F, 0x73, 0x73, 0x20, 0x41, 0x6E, 0x64, 0x65, 0x72, 0x73,
   0x6F, 0x6E, 0x20, 0x61, 0x6E, 0x64, 0x20, 0x45, 0x6C, 0x69, 0x20, 0x42, 0x69, 0x68, 0x61, 0x6D]

/-- The pass count of the default table (R72). -/
def defaultSBoxPasses : Nat := 5

/-- `TBL <- t; SBOX_VALID <- 1; respond OK` (R71, R72). -/
def State.buildTable (s : State) (t : Table) : State :=
  { s with tbl := t.toMemory, sboxValid := true }.respond []

/-- `SBOX_INIT_DEFAULT` (R72). -/
def execSboxInitDefault (s : State) : Answer :=
  .next (s.buildTable (sboxGenerate defaultSeed defaultSBoxPasses))

/-- `SBOX_INIT passes, <seed>` (R71); `passes` is not clamped (R74). -/
def execSboxInit (passes : BitVec 8) (seed : List Byte) (s : State) : Answer :=
  .next (s.buildTable (sboxGenerate seed passes.toNat))

end Sys2Proof.Machine
end

