-- ==== Sys2Proof/Machine/Dispatch.lean ====
section
/-! DEFINITION. One arm per command. -/

namespace Sys2Proof.Machine

def exec (i : Instr) (s : State) : Host.Outcome State Fault Refusal :=
  match i with
  | .sboxInitDefault => Sys2Proof.Machine.execSboxInitDefault s
  | .sboxInit passes seed => Sys2Proof.Machine.execSboxInit passes seed s
  | .genNew g passes tiger2 => Sys2Proof.Machine.execGenNew g passes tiger2 s
  | .genReset g => Sys2Proof.Machine.execGenReset g s
  | .updateByte g byte => Sys2Proof.Machine.execUpdateByte g byte s
  | .update g data => Sys2Proof.Machine.execUpdate g data s
  | .finalize g => Sys2Proof.Machine.execFinalize g s
  | .digestRead g idx => Sys2Proof.Machine.execDigestRead g idx s
  | .status g => Sys2Proof.Machine.execStatus g s

end Sys2Proof.Machine
end

