-- ==== Sys2Proof/Machine/Fetch.lean ====
section
/-! DEFINITION. Taking the next command from the command stream (R45, R47, R51, R150). -/

namespace Sys2Proof.Machine

/-- What came of collecting the payload words of a command. -/
inductive Payload where
  /-- The stream ends before the last of them: the command is incomplete (R51). -/
  | missing
  /-- The host asserted reset before the last of them (R150). -/
  | cutOff (rest : List HostEvent)
  /-- All of them, in order. -/
  | complete (ws : List Word32) (rest : List HostEvent)
deriving DecidableEq, Repr

/-- Collect `n` payload words after those in `taken`, which is in reverse. -/
def takePayload : Nat → List HostEvent → List Word32 → Payload
  | 0, rest, taken => .complete taken.reverse rest
  | _ + 1, [], _ => .missing
  | _ + 1, .reset :: rest, _ => .cutOff rest
  | n + 1, .word w :: rest, taken => takePayload n rest (w :: taken)

/-- What the block finds at the head of the command stream. -/
inductive Fetched where
  /-- No complete command and no reset: the block waits (R51, R150). -/
  | waiting
  /-- The reset event; a partly received command before it is discarded (R150). -/
  | reset (rest : List HostEvent)
  /-- A command word with all the payload words it announces (R45, R47). -/
  | command (head : Word32) (payload : List Word32) (rest : List HostEvent)
deriving DecidableEq, Repr

/-- The head of the command stream. -/
def fetch : List HostEvent → Fetched
  | [] => .waiting
  | .reset :: rest => .reset rest
  | .word w :: es =>
    match takePayload (payloadWords w) es [] with
    | .missing => .waiting
    | .cutOff rest => .reset rest
    | .complete ws rest => .command w ws rest

end Sys2Proof.Machine
end

