-- ==== Sys2Proof/Machine/Step.lean ====
section
/-! DEFINITION. One step: the block takes one complete command from the stream and executes it, or takes the reset
event, or waits (R38, R45, R51, R150). -/

namespace Sys2Proof.Machine

/-- One step. An illegal word raises `ERR_ILLEGAL_CMD` after its payload has been consumed (R52, R132). With no
complete command to take, the block waits and nothing changes (R51, log 3). -/
def step (s : State) : Host.Outcome State Fault Refusal :=
  match fetch s.inp with
  | .waiting => .next s
  | .reset rest => .next (s.hostReset rest)
  | .command head payload rest =>
    match decode head payload with
    | .command i => exec i { s with inp := rest }
    | .illegal _ => .next (State.raise { s with inp := rest } .illegalCmd)

/-- The state with the words of one command put at the head of the command stream, where `step` takes its next
command (R45); this stands for the host's delivering them (log 3). -/
def State.withFetchWord (s : State) (nbits w : Nat) : State :=
  { s with inp := (tableWords nbits w).map HostEvent.word ++ s.inp }

end Sys2Proof.Machine
end

