-- ==== Sys2Proof/Machine/HostDigest.lean ====
section
/-! DEFINITION. The functions of a digest that the spec defines and the host computes (R124 to R127). They are no
commands (R4); they are pure functions of the 24 bytes, for claims in the spec's terms. -/

namespace Sys2Proof.Machine

/-- The order of digests: the first differing byte decides, as unsigned numbers, byte 0 first (R125). -/
def digestLt : List Byte → List Byte → Bool
  | a :: as, b :: bs => if a = b then digestLt as bs else decide (a < b)
  | _, _ => false

/-- A nibble as an uppercase hexadecimal character (R126). -/
def hexDigit (n : BitVec 4) : Char :=
  if n.toNat < 10 then Char.ofNat (48 + n.toNat) else Char.ofNat (55 + n.toNat)

/-- The text form: two characters per byte, high nibble first, byte 0 first (R126). -/
def digestText (d : List Byte) : List Char :=
  d.flatMap fun b => [hexDigit (b.extractLsb' 4 4), hexDigit (b.extractLsb' 0 4)]

/-- The exclusive-or of the three little-endian words of the digest (R127). -/
def digestFold (d : List Byte) : Word := (wordsOfBytes d).foldl (· ^^^ ·) 0

/-- The scalar hash for a host of width `HOSTW` (R127): the fold, its two halves folded again on a 32-bit host. -/
def scalarHash (hostw : Config.HostWidth) (d : List Byte) : BitVec hostw.bits :=
  match hostw with
  | .w32 => (digestFold d).extractLsb' 0 32 ^^^ (digestFold d).extractLsb' 32 32
  | .w64 => digestFold d

end Sys2Proof.Machine
end

