-- ==== Sys2Proof/Machine/TextForm.lean ====
section
/-! DEFINITION. The text form of commands (R64): mnemonic, operands, byte strings, and the three pseudo-commands with
their expansions. It is a notation of the spec for command streams; the block itself never sees it. -/

namespace Sys2Proof.Machine

/-- The pseudo-command `HASH g, <data>`: the context restarted, the message accepted, the digest taken (R64). -/
def hashCommands (g : CtxNum) (data : List Byte) : List Instr := [.genReset g, .update g data, .finalize g]

/-- A text without its leading spaces. -/
def skipSpaces (cs : List Char) : List Char := cs.dropWhile fun c => decide (c = ' ')

/-- The value of a digit, decimal or hexadecimal in either case. -/
def digitValue (c : Char) : Option Nat :=
  if '0' ≤ c ∧ c ≤ '9' then some (c.toNat - 48)
  else if 'A' ≤ c ∧ c ≤ 'F' then some (c.toNat - 55)
  else if 'a' ≤ c ∧ c ≤ 'f' then some (c.toNat - 87)
  else none

/-- The digits at the head of the text, after those already read; what follows them. -/
def readDigits (base : Nat) (acc : Nat) : List Char → Nat × List Char
  | [] => (acc, [])
  | c :: cs =>
    match digitValue c with
    | some d => if d < base then readDigits base (base * acc + d) cs else (acc, c :: cs)
    | none => (acc, c :: cs)

/-- A number in a base, of one digit or more. -/
def readNumberIn (base : Nat) (cs : List Char) : Option (Nat × List Char) :=
  let r := readDigits base 0 cs
  if r.2.length < cs.length then some r else none

/-- A number: decimal, or hexadecimal with `0x` (R64). -/
def readNumber (cs : List Char) : Option (Nat × List Char) :=
  match skipSpaces cs with
  | '0' :: 'x' :: cs => readNumberIn 16 cs
  | cs => readNumberIn 10 cs

/-- A number that fits in a field of `w` bits. -/
def readField (w : Nat) (cs : List Char) : Option (BitVec w × List Char) :=
  match readNumber cs with
  | some (n, cs) => if n < 2 ^ w then some (BitVec.ofNat w n, cs) else none
  | none => none

/-- The comma between two operands. -/
def readComma (cs : List Char) : Option (List Char) :=
  match skipSpaces cs with
  | ',' :: cs => some cs
  | _ => none

/-- Nothing but spaces is left of the text. -/
def endOfText (cs : List Char) : Bool := (skipSpaces cs).isEmpty

/-- An ASCII character as a byte. -/
def asciiByte (c : Char) : Option Byte := if c.toNat < 128 then some (BitVec.ofNat 8 c.toNat) else none

/-- Pairs of hexadecimal digits with spaces between, to the end of the text. -/
def hexBytes : List Char → Option (List Byte)
  | [] => some []
  | ' ' :: cs => hexBytes cs
  | [_] => none
  | h :: l :: cs =>
    match digitValue h, digitValue l, hexBytes cs with
    | some a, some b, some bs => some (BitVec.ofNat 8 (16 * a + b) :: bs)
    | _, _, _ => none

/-- A byte string up to the end of the text: quoted ASCII, `hex` bytes, or a repetition such as `'a' * 56` (R64). -/
def readByteString (cs : List Char) : Option (List Byte) :=
  match skipSpaces cs with
  | '"' :: cs =>
    match cs.dropWhile fun c => decide (c ≠ '"') with
    | _ :: rest => if endOfText rest then (cs.takeWhile fun c => decide (c ≠ '"')).mapM asciiByte else none
    | [] => none
  | '\'' :: c :: '\'' :: cs =>
    match skipSpaces cs with
    | '*' :: cs =>
      match asciiByte c, readNumber cs with
      | some b, some (n, rest) => if endOfText rest then some (List.replicate n b) else none
      | _, _ => none
    | _ => none
  | 'h' :: 'e' :: 'x' :: cs => hexBytes cs
  | _ => none

/-- The context operand and nothing after it. -/
def readCtxOnly (f : CtxNum → List Instr) (cs : List Char) : Option (List Instr) :=
  match readField 4 cs with
  | some (g, rest) => if endOfText rest then some (f g) else none
  | none => none

/-- A numeric operand after a comma; what follows it. -/
def readNextField (w : Nat) (cs : List Char) : Option (BitVec w × List Char) := (readComma cs).bind (readField w)

/-- A first field, a comma and a byte string. -/
def readFieldAndBytes (w : Nat) (f : BitVec w → List Byte → List Instr) (cs : List Char) : Option (List Instr) :=
  match readField w cs with
  | some (x, rest) => ((readComma rest).bind readByteString).map (f x)
  | none => none

/-- The context operand and one more, and nothing after them. -/
def readCtxAndField (w : Nat) (f : CtxNum → BitVec w → List Instr) (cs : List Char) : Option (List Instr) :=
  match readField 4 cs with
  | some (g, rest) =>
    match readNextField w rest with
    | some (x, rest) => if endOfText rest then some (f g x) else none
    | none => none
  | none => none

/-- The operands of `GEN_NEW`; left out, `passes` is 3 and `tiger2` is 0 (R64). -/
def readGenNew (cs : List Char) : Option (List Instr) :=
  match readField 4 cs with
  | none => none
  | some (g, rest) =>
    if endOfText rest then some [.genNew g 3 false]
    else match readNextField 8 rest with
      | none => none
      | some (passes, rest) =>
        if endOfText rest then some [.genNew g passes false]
        else match readNextField 1 rest with
          | some (t, rest) => if endOfText rest then some [.genNew g passes (t.getLsbD 0)] else none
          | none => none

/-- The operands of the command with this mnemonic. -/
def readOperands (mnemonic cs : List Char) : Option (List Instr) :=
  if mnemonic = "SBOX_INIT_DEFAULT".toList then if endOfText cs then some [.sboxInitDefault] else none
  else if mnemonic = "SBOX_INIT".toList then readFieldAndBytes 8 (fun passes seed => [.sboxInit passes seed]) cs
  else if mnemonic = "GEN_NEW".toList then readGenNew cs
  else if mnemonic = "GEN_RESET".toList then readCtxOnly (fun g => [.genReset g]) cs
  else if mnemonic = "UPDATE_BYTE".toList then readCtxAndField 8 (fun g byte => [.updateByte g byte]) cs
  else if mnemonic = "UPDATE".toList then readFieldAndBytes 4 (fun g data => [.update g data]) cs
  else if mnemonic = "FINALIZE".toList then readCtxOnly (fun g => [.finalize g]) cs
  else if mnemonic = "DIGEST_READ".toList then readCtxAndField 5 (fun g idx => [.digestRead g idx]) cs
  else if mnemonic = "STATUS".toList then readCtxOnly (fun g => [.status g]) cs
  else if mnemonic = "HASH".toList then readFieldAndBytes 4 hashCommands cs
  else none

/-- The commands that a text stands for: one, or the three of `HASH` (R64); none where the text is no command or an
operand does not fit its field. -/
def readCommand (cs : List Char) : Option (List Instr) :=
  let cs := skipSpaces cs
  match readOperands (cs.takeWhile fun c => decide (c ≠ ' ')) (cs.dropWhile fun c => decide (c ≠ ' ')) with
  | some is => if is.all WellFormed then some is else none
  | none => none

/-- The words of a text (R64, R45). -/
def assemble (cs : List Char) : Option (List Word32) := (readCommand cs).map fun is => is.flatMap encode

end Sys2Proof.Machine
end

