-- ==== Sys2Proof/Safety.lean ====
section
/-! DEFINITION. The terms that claims use: the invariants of R26 and R156 that every state of a run meets, when a
command word is illegal for a block (R63), and the digest of a message as a function (R105, R111). No definition of
the machine depends on this file. -/

namespace Sys2Proof.Machine

/-- Every address below `n` has been written since reset. -/
def Memory.Written (n : Nat) (m : Memory) : Prop := ∀ a, a < n → (m.lookup a).isSome = true

/-- `DIG` holds the serialisation of `st` (R116). -/
def Serialised (dig : Memory) (st : Words3) : Prop :=
  ∀ k j, k < 3 → j < 8 → dig.lookup (8 * k + j) = some (byteOf (Words3.get st k) j)

/-- The invariants of one context (R26), in a block whose `SBOX_VALID` is `valid`. -/
structure GenCtx.Inv (valid : Bool) (c : GenCtx) : Prop where
  /-- R26 (a). -/
  passes_ge : 3 ≤ c.passes.toNat
  /-- `BUF` is in canonical form. -/
  buf_wf : c.buf.wf 64 = true
  /-- `DIG` is in canonical form. -/
  dig_wf : c.dig.wf 24 = true
  /-- R26 (b), (d): the bytes counted since `COUNT` was 0, or all 64, have been written. -/
  buf_written : Memory.Written (min c.count.toNat 64) c.buf
  /-- A Finalized context needed a table (R133). -/
  finalized_valid : c.finalized = true → valid = true
  /-- R26 (c): the padded length. -/
  finalized_fill : c.finalized = true → c.fill = 0
  /-- R26 (c): the cached digest. -/
  finalized_dig : c.finalized = true → Serialised c.dig c.st

/-- The invariants of the block between commands. -/
structure State.Inv (s : State) : Prop where
  /-- R5: 1 to 16 contexts. -/
  ngen_bounds : 1 ≤ s.ngen ∧ s.ngen ≤ 16
  /-- R130: codes 5 to 15 are never produced. -/
  fault_le : s.fault.toNat ≤ 4
  /-- `TBL` is in canonical form. -/
  tbl_wf : s.tbl.wf 8192 = true
  /-- R156 (a): a valid table has been written in full. -/
  tbl_written : s.sboxValid = true → Memory.Written 8192 s.tbl
  /-- R26 for every context. -/
  ctxs_inv : ∀ c ∈ s.ctxs, c.Inv s.sboxValid

/-- Every address space of the block is in canonical form. -/
structure State.Canonical (s : State) : Prop where
  /-- `TBL`. -/
  tbl_wf : s.tbl.wf 8192 = true
  /-- `BUF[g]` and `DIG[g]` of every context. -/
  ctxs_wf : ∀ c ∈ s.ctxs, c.buf.wf 64 = true ∧ c.dig.wf 24 = true

/-- The command word is illegal for a block of `ngen` contexts: clauses (a) to (e) of R63. -/
def IllegalFor (ngen : Nat) (w : Word32) : Prop :=
  (opOf w = 0x0 ∨ 0xA ≤ opOf w)
  ∨ ((opOf w = 0x1 ∨ opOf w = 0x2) ∧ ctxOf w ≠ 0)
  ∨ ((0x3 ≤ opOf w ∧ opOf w ≤ 0x9) ∧ ngen ≤ (ctxOf w).toNat)
  ∨ ((opOf w = 0x1 ∨ opOf w = 0x4 ∨ opOf w = 0x7 ∨ opOf w = 0x9) ∧ argOf w ≠ 0)
  ∨ (opOf w = 0x3 ∧ (argOf w).extractLsb' 9 15 ≠ 0)
  ∨ (opOf w = 0x5 ∧ (argOf w).extractLsb' 8 16 ≠ 0)
  ∨ (opOf w = 0x8 ∧ (argOf w).extractLsb' 5 19 ≠ 0)
  ∨ (opOf w = 0x8 ∧ 24 ≤ ((argOf w).extractLsb' 0 5).toNat)

/-- Commands executed one after the other, each to completion (R38). -/
def execAll : List Instr → State → Answer
  | [], s => .next s
  | i :: is, s =>
    match exec i s with
    | .next t => execAll is t
    | .fault r => .fault r
    | .refused r => .refused r

/-- Two states look alike to the commands of context g: the same table, `SBOX_VALID`, `FAULT`, registers of the
context and reset draw (R43). -/
def SameForCtx (g : CtxNum) (s s' : State) : Prop :=
  s.tbl = s'.tbl ∧ s.sboxValid = s'.sboxValid ∧ s.fault = s'.fault ∧ s.ctx? g = s'.ctx? g ∧ s.epoch = s'.epoch

/-- The number of zero bytes in the padding of a message of `len` bytes (R105). -/
def padZeroCount (len : Nat) : Nat := if len % 64 ≤ 55 then 55 - len % 64 else 119 - len % 64

/-- The length of the padded message, a multiple of 64 (R105). -/
def paddedLength (len : Nat) : Nat := if len % 64 ≤ 55 then 64 * (len / 64) + 64 else 64 * (len / 64) + 128

/-- `Pad(M, m)`: the message, the marker, the zeros and the bit length (R105). -/
def padMessage (marker : Byte) (msg : List Byte) : List Byte :=
  msg ++ marker :: List.replicate (padZeroCount msg.length) 0 ++ wordToBytes (BitVec.ofNat 64 (8 * msg.length))

/-- The state before `FINALIZE` compresses its last block (R102 steps 2 to 4, R103): the waiting full block compressed
if there is one; or, from fill 56 on, the block that the marker and the first zeros complete, unless the counter wraps
to 0 there (R109). -/
def GenCtx.stateBeforeLastBlock (t : Table) (junk : Nat → Byte) (c : GenCtx) : Words3 :=
  if c.fill ≤ 55 then
    if c.count ≠ 0 ∧ c.fill = 0 then compress t c.st (c.block junk) c.passes.toNat else c.st
  else if c.count.toNat + (64 - c.fill) = 2 ^ 64 then c.st
  else compress t c.st
    (GenCtx.block junk { c with
      buf := c.buf.writeBytes c.fill ((if c.tiger2 then 0x80 else 0x01) :: List.replicate (63 - c.fill) 0) })
    c.passes.toNat

/-- Bytes taken 64 at a time as blocks of eight little-endian words, `n` blocks of them (R96, R111). -/
def messageBlocks : Nat → List Byte → List Words8
  | 0, _ => []
  | n + 1, bs => seedBlock (bs.take 64) :: messageBlocks n (bs.drop 64)

/-- The state after the padded message has been compressed block by block from `IV` (R111). -/
def messageState (t : Table) (passes : Nat) (marker : Byte) (msg : List Byte) : Words3 :=
  (messageBlocks (paddedLength msg.length / 64) (padMessage marker msg)).foldl
    (fun st blk => compress t st blk passes) Config.iv

/-- The 24 bytes of a digest (R111, R116). -/
def stateBytes (st : Words3) : List Byte := wordToBytes st.w0 ++ wordToBytes st.w1 ++ wordToBytes st.w2

end Sys2Proof.Machine
end

