-- ==== Sys2Proof/Certificates/Slice0/Obligations.lean ====
section
/-! DEFINITION. The statements about the machine, from the numbered rules of spec/. A state `s` is any state, not only
one that a run reaches; where a statement needs an invariant it has `s.Inv` (R26, R130, R156) as a premise, and that
every step keeps `Inv` is a statement of its own. Titles, tiers and cites stand in OBLIGATIONS.json. -/

open Sys2Proof Sys2Proof.Machine

/-! ## Encoding -/

/-- R45 to R48, R53 to R62: the words of every well-formed command decode to it, and the command word announces
exactly the payload words. -/
def Obligations.DecodeOfEncodeIsIdentity : Prop :=
  ∀ i : Instr, WellFormed i = true →
    ∃ head payload, encode i = head :: payload ∧ payload.length = payloadWords head ∧
      decode head payload = .command i

/-- R52, R53: a word decodes to at most one command, whose command word it is and whose payload it carries. -/
def Obligations.EncodeOfDecodeIsTheWord : Prop :=
  ∀ (w : Word32) (payload : List Word32) (i : Instr), payload.length = payloadWords w →
    decode w payload = .command i →
      WellFormed i = true ∧ encodeHead i = w ∧ i.payload = unpackBytes (payloadBytes w) payload

/-- R54 to R62: a word decodes to a row's command exactly when `w & mask = match` for that row (and `idx < 24` for
`DIGEST_READ`), with the operands from the row's fields. R56 to R62 also ask for `ctx < NGEN`: that decoding leaves this
to the selection of the context is the model's choice (log 11). -/
def Obligations.DecodeFollowsMaskAndMatch : Prop :=
  ∀ (w : Word32) (p : List Word32),
    (decode w p = .command .sboxInitDefault ↔ w &&& 0xFFFFFFFF#32 = 0x10000000#32) ∧
    (∀ passes seed, decode w p = .command (.sboxInit passes seed) ↔
      w &&& 0xFF000000#32 = 0x20000000#32 ∧ passes = w.extractLsb' 0 8 ∧
        seed = unpackBytes (w.extractLsb' 8 16).toNat p) ∧
    (∀ g passes tiger2, decode w p = .command (.genNew g passes tiger2) ↔
      w &&& 0xF0FFFE00#32 = 0x30000000#32 ∧ g = w.extractLsb' 24 4 ∧ passes = w.extractLsb' 0 8 ∧
        tiger2 = w.getLsbD 8) ∧
    (∀ g, decode w p = .command (.genReset g) ↔
      w &&& 0xF0FFFFFF#32 = 0x40000000#32 ∧ g = w.extractLsb' 24 4) ∧
    (∀ g byte, decode w p = .command (.updateByte g byte) ↔
      w &&& 0xF0FFFF00#32 = 0x50000000#32 ∧ g = w.extractLsb' 24 4 ∧ byte = w.extractLsb' 0 8) ∧
    (∀ g data, decode w p = .command (.update g data) ↔
      w &&& 0xF0000000#32 = 0x60000000#32 ∧ g = w.extractLsb' 24 4 ∧
        data = unpackBytes (w.extractLsb' 0 24).toNat p) ∧
    (∀ g, decode w p = .command (.finalize g) ↔
      w &&& 0xF0FFFFFF#32 = 0x70000000#32 ∧ g = w.extractLsb' 24 4) ∧
    (∀ g idx, decode w p = .command (.digestRead g idx) ↔
      w &&& 0xF0FFFFE0#32 = 0x80000000#32 ∧ g = w.extractLsb' 24 4 ∧ idx = w.extractLsb' 0 5 ∧
        (w.extractLsb' 0 5).toNat < 24) ∧
    (∀ g, decode w p = .command (.status g) ↔
      w &&& 0xF0FFFFFF#32 = 0x90000000#32 ∧ g = w.extractLsb' 24 4)

/-- R54 to R62: example words of the spec decode to the commands they stand for. -/
def Obligations.SpecExampleWordsDecode : Prop :=
  decode 0x10000000#32 [] = .command .sboxInitDefault ∧
  decode 0x20000501#32 [0x65676954#32, 0x00000072#32] =
    .command (.sboxInit 1 [0x54, 0x69, 0x67, 0x65, 0x72]) ∧
  decode 0x31000103#32 [] = .command (.genNew 1 3 true) ∧
  decode 0x41000000#32 [] = .command (.genReset 1) ∧
  decode 0x50000061#32 [] = .command (.updateByte 0 0x61) ∧
  decode 0x61000003#32 [0x00636261#32] = .command (.update 1 [0x61, 0x62, 0x63]) ∧
  decode 0x71000000#32 [] = .command (.finalize 1) ∧
  decode 0x80000017#32 [] = .command (.digestRead 0 23) ∧
  decode 0x90000000#32 [] = .command (.status 0)

/-! ## The command stream -/

/-- R38, R45: when the words at the head of the stream decode to a command, a step is `exec` of that command with
the words taken from the stream. -/
def Obligations.StepExecutesDecodedCommand : Prop :=
  ∀ (s : State) (head : Word32) (payload : List Word32) (rest : List HostEvent) (i : Instr),
    fetch s.inp = .command head payload rest → decode head payload = .command i →
      step s = exec i { s with inp := rest }

/-- R38, R45, R47: a well-formed command whose words stand at the head of the stream is what a step executes. -/
def Obligations.StepExecutesEncodedCommand : Prop :=
  ∀ (s : State) (i : Instr) (rest : List HostEvent), WellFormed i = true →
    s.inp = (encode i).map HostEvent.word ++ rest → step s = exec i { s with inp := rest }

/-- R132 (with the clauses of R63): an illegal word raises `ERR_ILLEGAL_CMD` after its payload has been consumed,
and changes nothing else. -/
def Obligations.IllegalWordIsRefused : Prop :=
  ∀ (s : State) (head : Word32) (payload : List Word32) (rest : List HostEvent),
    fetch s.inp = .command head payload rest → IllegalFor s.ngen head →
      step s = .next { s with
        inp := rest
        fault := if s.fault = 0 then 1 else s.fault
        out := s.out ++ [1] }

/-- R52: a word that is not illegal is one of the nine commands with its constraints met, and a step executes it. -/
def Obligations.LegalWordIsExecuted : Prop :=
  ∀ (s : State) (head : Word32) (payload : List Word32) (rest : List HostEvent),
    fetch s.inp = .command head payload rest → ¬ IllegalFor s.ngen head →
      ∃ i, decode head payload = .command i ∧ i.ctxExists s.ngen = true ∧ WellFormed i = true ∧
        step s = exec i { s with inp := rest }

/-- R51: an incomplete command has no effect and no response. That the step then leaves the state as it is, and does
not stop the machine, is the model's reading (log 3). -/
def Obligations.IncompleteCommandWaits : Prop :=
  (∀ s : State, s.inp = [] → step s = .next s) ∧
  ∀ (s : State) (w : Word32) (ws : List Word32),
    s.inp = HostEvent.word w :: ws.map HostEvent.word → ws.length < payloadWords w → step s = .next s

/-- R150, R167: the reset event, at the head of the stream or in the middle of a command, discards what was received
of that command without a response and restores the registers of R28. That earlier responses stay, that the draw number
rises and that unspecified storage is written as nothing listed is the model's choice (logs 2 and 4). -/
def Obligations.ResetEventRestoresRegisters : Prop :=
  ∀ (s : State) (pre : List Word32) (rest : List HostEvent),
    s.inp = pre.map HostEvent.word ++ HostEvent.reset :: rest →
    (pre = [] ∨ ∃ w ws, pre = w :: ws ∧ ws.length < payloadWords w) →
      ∃ t, step s = .next t ∧ t.out = s.out ∧ t.inp = rest ∧ t.fault = 0 ∧ t.sboxValid = false ∧
        t.tbl = [] ∧ t.ngen = s.ngen ∧ t.epoch = s.epoch + 1 ∧
        ∀ c ∈ t.ctxs, c.count = 0 ∧ c.passes = 3 ∧ c.tiger2 = false ∧ c.finalized = false ∧
          c.st = ⟨0x0123456789ABCDEF, 0xFEDCBA9876543210, 0xF096A5B4C3B2E187⟩ ∧ c.buf = [] ∧ c.dig = []

/-- R28: the values after reset, for every number of contexts. Bulk storage is unspecified, which the
model writes as nothing listed (log 2). The values of `epoch`, `inp` and `out` are the model's (logs 2 and 3) and are not stated. -/
def Obligations.ResetStateValues : Prop :=
  ∀ n : Nat, (State.resetWith n).sboxValid = false ∧ (State.resetWith n).fault = 0 ∧
    (State.resetWith n).ngen = n ∧ (State.resetWith n).tbl = [] ∧
    ∀ c ∈ (State.resetWith n).ctxs, c.count = 0 ∧ c.passes = 3 ∧ c.tiger2 = false ∧ c.finalized = false ∧
      c.st = ⟨0x0123456789ABCDEF, 0xFEDCBA9876543210, 0xF096A5B4C3B2E187⟩ ∧ c.buf = [] ∧ c.dig = []

/-! ## Faults and responses -/

/-- R131: a command that answers a non-zero code changes nothing but `FAULT`, and that only from 0. -/
def Obligations.RefusedCommandChangesOnlyFault : Prop :=
  ∀ (i : Instr) (s t : State) (code : BitVec 4), exec i s = .next t → code ≠ 0 →
    t.out = s.out ++ [statusWord code] →
      t = { s with
        fault := if s.fault = 0 then code else s.fault
        out := s.out ++ [statusWord code] }

/-- R131: whatever `FAULT` holds, a command other than `STATUS` executes normally. -/
def Obligations.FaultRegisterBlocksNothing : Prop :=
  ∀ (i : Instr) (s t : State) (f : BitVec 4), (∀ g, i ≠ .status g) → exec i s = .next t →
    ∃ f', exec i { s with fault := f } = .next { t with fault := f' }

/-- R18: between reset events `FAULT` keeps a non-zero value, and takes the code of the first refused command. -/
def Obligations.FirstFaultIsKept : Prop :=
  ∀ s t : State, step s = .next t → (∀ rest, fetch s.inp ≠ .reset rest) →
    (s.fault ≠ 0 → t.fault = s.fault) ∧
    (s.fault = 0 → (t.fault = 0 ∧ ∀ e : ErrCode, t.out ≠ s.out ++ [statusWord e.code]) ∨
      ∃ e : ErrCode, t.fault = e.code ∧ t.out = s.out ++ [statusWord e.code])

/-- R133: exactly when `ERR_SBOX_INVALID` is answered. -/
def Obligations.SboxInvalidRaisedExactly : Prop :=
  ∀ (i : Instr) (s t : State), exec i s = .next t →
    (t.out = s.out ++ [2] ↔
      ((∃ g b, i = .updateByte g b) ∨ (∃ g d, i = .update g d) ∨ ∃ g, i = .finalize g) ∧
        i.ctxExists s.ngen = true ∧ s.sboxValid = false)

/-- R134, with the priority of R136: exactly when `ERR_FINALIZED` is answered; the contexts stay as they were. -/
def Obligations.FinalizedRaisedExactly : Prop :=
  ∀ (i : Instr) (s t : State), exec i s = .next t →
    (t.out = s.out ++ [3] ↔
      ∃ g c, ((∃ b, i = .updateByte g b) ∨ ∃ d, i = .update g d) ∧ s.ctx? g = some c ∧ c.finalized = true ∧
        s.sboxValid = true) ∧
    (t.out = s.out ++ [3] → t.ctxs = s.ctxs)

/-- R135, with the priority of R136: exactly when `ERR_NO_DIGEST` is answered. -/
def Obligations.NoDigestRaisedExactly : Prop :=
  ∀ (i : Instr) (s t : State), exec i s = .next t →
    (t.out = s.out ++ [4] ↔
      ∃ g idx c, i = .digestRead g idx ∧ idx.toNat < 24 ∧ s.ctx? g = some c ∧ c.finalized = false)

/-- R63 (c), (e): exactly when a decoded command answers `ERR_ILLEGAL_CMD`. That `exec` itself checks these two clauses is
the model's choice (log 11). -/
def Obligations.IllegalCommandRaisedExactly : Prop :=
  ∀ (i : Instr) (s t : State), exec i s = .next t →
    (t.out = s.out ++ [1] ↔ i.ctxExists s.ngen = false ∨ ∃ g idx, i = .digestRead g idx ∧ 24 ≤ idx.toNat)

/-- R49, R50, R166: every command answers once: a fault's code alone, or `OK` with the data words of its row. -/
def Obligations.EveryCommandAnswersOnce : Prop :=
  ∀ (i : Instr) (s : State), ∃ t r, exec i s = .next t ∧ t.out = s.out ++ r ∧
    ((∃ e : ErrCode, r = [statusWord e.code]) ∨
      ∃ data, r = 0 :: data ∧ data.length =
        match i with
        | .sboxInitDefault => 0
        | .sboxInit _ _ => 0
        | .genNew _ _ _ => 0
        | .genReset _ => 0
        | .updateByte _ _ => 0
        | .update _ _ => 0
        | .finalize _ => 6
        | .digestRead _ _ => 1
        | .status _ => 1)

/-! ## The table -/

/-- R71: `SBOX_INIT` at any time writes the whole of `TBL`, sets `SBOX_VALID`, answers `OK` and touches nothing
else, no context among it (R161). -/
def Obligations.SboxInitBuildsTable : Prop :=
  ∀ (passes : BitVec 8) (seed : List Byte) (s : State),
    ∃ tbl, exec (.sboxInit passes seed) s = .next { s with tbl := tbl, sboxValid := true, out := s.out ++ [0] } ∧
      tbl.wf 8192 = true ∧
      ∀ a, a < 8192 → tbl.lookup a = some ((sboxGenerate seed passes.toNat).byte a)

/-- R72: `SBOX_INIT_DEFAULT` is `SBOX_INIT 5, DEFAULT_SEED`, the seed being the 64 ASCII bytes of R72. -/
def Obligations.SboxInitDefaultIsFivePassesOfDefaultSeed : Prop :=
  (defaultSeed = "Tiger - A Fast New Hash Function, by Ross Anderson and Eli Biham".toList.map
    fun ch => BitVec.ofNat 8 ch.toNat) ∧
  ∀ s : State, ∃ tbl,
    exec .sboxInitDefault s = .next { s with tbl := tbl, sboxValid := true, out := s.out ++ [0] } ∧
    exec (.sboxInit 5 defaultSeed) s = .next { s with tbl := tbl, sboxValid := true, out := s.out ++ [0] }

/-- R74, R66: with no passes the table is the fill pattern: every byte of word i is i modulo 256. -/
def Obligations.ZeroPassesLeaveFillPattern : Prop :=
  ∀ (s : State) (seed : List Byte), ∃ t, exec (.sboxInit 0 seed) s = .next t ∧ t.sboxValid = true ∧
    ∀ i col, i < 1024 → col < 8 → t.tbl.lookup (8 * i + col) = some (BitVec.ofNat 8 i)

/-- R76: the table is a function of seed bytes 0 to 63, zero-padded, and the pass count alone. -/
def Obligations.TableDependsOnSeedAndPassesAlone : Prop :=
  (∀ (passes : BitVec 8) (seed seed' : List Byte) (s s' t t' : State),
    (∀ k, k < 64 → (seed[k]?).getD 0 = (seed'[k]?).getD 0) →
    exec (.sboxInit passes seed) s = .next t → exec (.sboxInit passes seed') s' = .next t' → t.tbl = t'.tbl) ∧
  ∀ s s' t t' : State, exec .sboxInitDefault s = .next t → exec .sboxInitDefault s' = .next t' → t.tbl = t'.tbl

/-- R75: after any generation each lane of each sub-table is a permutation of the 256 byte values. -/
def Obligations.LanesStayPermutations : Prop :=
  ∀ (passes : BitVec 8) (seed : List Byte) (s t : State), exec (.sboxInit passes seed) s = .next t →
    ∀ (sub col : Nat) (v : Byte), sub < 4 → col < 8 →
      ∃! i, i < 256 ∧ t.tbl.lookup (8 * (256 * sub + i) + col) = some v

/-- R69, R70: the rolling counter has period three from 2 on; `Compress` runs at inner iterations 0, 3, 6, and so on,
on the table as it then stands; and inner iteration n exchanges, in each lane of sub-table `n mod 4`, the byte of entry
`(n div 4) mod 256` with that of the entry that byte `col` of `GS[abc]` selects, and changes no other byte. -/
def Obligations.RollingCounterHasPeriodThree : Prop :=
  ∀ (w : Words8) (n : Nat) (l l' : GenLoop), l = GenLoop.run w n 0 GenLoop.start →
    l' = GenLoop.run w (n + 1) 0 GenLoop.start →
      l.abc = (n + 2) % 3 ∧
      (l'.gs = if n % 3 = 0 then compress l.tab l.gs w 3 else l.gs) ∧
      ∀ sub v col, sub < 4 → v < 256 → col < 8 →
        l'.tab.byte (8 * (256 * sub + v) + col) =
          if sub = n % 4 ∧ v = n / 4 % 256 then
            l.tab.byte (8 * (256 * sub + (byteOf (Words3.get l'.gs (n % 3)) col).toNat) + col)
          else if sub = n % 4 ∧ v = (byteOf (Words3.get l'.gs (n % 3)) col).toNat then
            l.tab.byte (8 * (256 * sub + n / 4 % 256) + col)
          else l.tab.byte (8 * (256 * sub + v) + col)

/-- R77, R113: no command but the two SBox commands writes `TBL` or `SBOX_VALID`. -/
def Obligations.OnlySboxCommandsWriteTable : Prop :=
  ∀ (i : Instr) (s t : State), exec i s = .next t → i ≠ .sboxInitDefault → (∀ p d, i ≠ .sboxInit p d) →
    t.tbl = s.tbl ∧ t.sboxValid = s.sboxValid

/-- R17: `SBOX_VALID` is set by the two SBox commands and cleared by the reset event, by nothing else. -/
def Obligations.SboxValidClearedOnlyByReset : Prop :=
  ∀ s t : State, step s = .next t →
    (s.sboxValid = true → t.sboxValid = false → ∃ rest, fetch s.inp = .reset rest) ∧
    (s.sboxValid = false → t.sboxValid = true → ∃ head payload rest i, fetch s.inp = .command head payload rest ∧
      decode head payload = .command i ∧ (i = .sboxInitDefault ∨ ∃ p d, i = .sboxInit p d))

/-- R31, R32: `T[i]` is the little-endian word at address `8*i` of `TBL`, in canonical form (logs 2
and 5). -/
def Obligations.TableWordIsEightBytes : Prop :=
  ∀ (junk : Nat → Byte) (m : Memory) (i : Nat), m.wf 8192 = true → i < 1024 →
    (m.table junk).word i = m.read8 junk (8 * i)

/-- R38, R76 (log 5): the table that a command finds in `TBL` is the one that was written to it, whatever `TBL` held
after reset. -/
def Obligations.WrittenTableIsReadBack : Prop :=
  ∀ (junk : Nat → Byte) (t : Table), t.toMemory.table junk = t

/-! ## Byte order and the compression core -/

/-- R31: an 8-byte write puts byte j of the word at address a + j and leaves every other address alone, and an 8-byte
read gives the word back. -/
def Obligations.WordAccessIsLittleEndian : Prop :=
  ∀ (junk : Nat → Byte) (m : Memory) (a : Nat) (w : Word),
    (m.write8 a w).read8 junk a = w ∧
    (∀ j, j < 8 → (m.write8 a w).read junk (a + j) = w.extractLsb' (8 * j) 8) ∧
    (∀ x, x < a ∨ a + 8 ≤ x → (m.write8 a w).read junk x = m.read junk x)

/-- R82, R81: one round, on the words `T[256*s + v]` of the table. -/
def Obligations.RoundFollowsTheTable : Prop :=
  ∀ (t : Table) (a b c x mul : Word),
    round t a b c x mul =
      ⟨a - (t.word (byteOf (c ^^^ x) 0).toNat ^^^ t.word (256 + (byteOf (c ^^^ x) 2).toNat) ^^^
            t.word (512 + (byteOf (c ^^^ x) 4).toNat) ^^^ t.word (768 + (byteOf (c ^^^ x) 6).toNat)),
       (b + (t.word (768 + (byteOf (c ^^^ x) 1).toNat) ^^^ t.word (512 + (byteOf (c ^^^ x) 3).toNat) ^^^
            t.word (256 + (byteOf (c ^^^ x) 5).toNat) ^^^ t.word (byteOf (c ^^^ x) 7).toNat)) * mul,
       c ^^^ x⟩

/-- R83 to R88: the parts of `Compress` and the whole. `Pass` is eight rounds on the triple of roles, which moves on by
one place after each; `Schedule` is its sixteen statements, `y` standing for the words after the first eight; `Compress`
is three passes with multipliers 5, 7 and 9, a schedule before each but the first, then for each pass beyond the third a
schedule, a pass with multiplier 9 and the rotation, and at the end the feed-forward. A pass count below 3 is taken
as 3. -/
def Obligations.CompressRunsAtLeastThreePasses : Prop :=
  (∀ (t : Table) (a b c mul : Word) (x : Words8) (r : Words3),
    r = [x.x0, x.x1, x.x2, x.x3, x.x4, x.x5, x.x6, x.x7].foldl (fun v xk => round t v.w1 v.w2 v.w0 xk mul) ⟨c, a, b⟩ →
      pass t a b c x mul = ⟨r.w2, r.w0, r.w1⟩) ∧
  (∀ x z : Words8, z = schedule x → ∃ y : Words8,
    y.x0 = x.x0 - (x.x7 ^^^ 0xA5A5A5A5A5A5A5A5) ∧ y.x1 = x.x1 ^^^ y.x0 ∧ y.x2 = x.x2 + y.x1 ∧
    y.x3 = x.x3 - (y.x2 ^^^ ((~~~y.x1) <<< 19)) ∧ y.x4 = x.x4 ^^^ y.x3 ∧ y.x5 = x.x5 + y.x4 ∧
    y.x6 = x.x6 - (y.x5 ^^^ ((~~~y.x4) >>> 23)) ∧ y.x7 = x.x7 ^^^ y.x6 ∧
    z.x0 = y.x0 + y.x7 ∧ z.x1 = y.x1 - (z.x0 ^^^ ((~~~y.x7) <<< 19)) ∧ z.x2 = y.x2 ^^^ z.x1 ∧ z.x3 = y.x3 + z.x2 ∧
    z.x4 = y.x4 - (z.x3 ^^^ ((~~~z.x2) >>> 23)) ∧ z.x5 = y.x5 ^^^ z.x4 ∧ z.x6 = y.x6 + z.x5 ∧
    z.x7 = y.x7 - (z.x6 ^^^ 0x0123456789ABCDEF)) ∧
  (∀ (t : Table) (st p1 p2 p3 v : Words3) (blk x : Words8) (passes : Nat),
    p1 = pass t st.w0 st.w1 st.w2 blk 5 →
    p2 = pass t p1.w2 p1.w0 p1.w1 (schedule blk) 7 →
    p3 = pass t p2.w2 p2.w0 p2.w1 (schedule (schedule blk)) 9 →
    (v, x) = Nat.iterate (fun vx : Words3 × Words8 =>
        let q := pass t vx.1.w0 vx.1.w1 vx.1.w2 (schedule vx.2) 9
        (⟨q.w2, q.w0, q.w1⟩, schedule vx.2))
      (max 3 passes - 3) (⟨p3.w2, p3.w0, p3.w1⟩, schedule (schedule blk)) →
      compress t st blk passes = ⟨v.w0 ^^^ st.w0, v.w1 - st.w1, v.w2 + st.w2⟩) ∧
  ∀ (t : Table) (st : Words3) (blk : Words8) (passes : Nat),
    compress t st blk passes = compress t st blk (max 3 passes)

/-! ## The streaming generator -/

/-- R98: `GEN_NEW` on a context that exists, and on one that does not. -/
def Obligations.GenNewRestartsContext : Prop :=
  ∀ (s : State) (g : CtxNum) (passes : BitVec 8) (tiger2 : Bool),
    (∀ c, s.ctx? g = some c → exec (.genNew g passes tiger2) s = .next { s with
      ctxs := s.ctxs.set g.toNat
        { count := 0
          passes := if passes.toNat < 3 then 3 else passes
          tiger2 := tiger2
          finalized := false
          st := ⟨0x0123456789ABCDEF, 0xFEDCBA9876543210, 0xF096A5B4C3B2E187⟩
          buf := c.buf
          dig := c.dig }
      out := s.out ++ [0] }) ∧
    (s.ctx? g = none → exec (.genNew g passes tiger2) s = .next { s with
      fault := if s.fault = 0 then 1 else s.fault
      out := s.out ++ [1] })

/-- R99: `GEN_RESET` on a context that exists, and on one that does not. -/
def Obligations.GenResetRestartsContext : Prop :=
  ∀ (s : State) (g : CtxNum),
    (∀ c, s.ctx? g = some c → exec (.genReset g) s = .next { s with
      ctxs := s.ctxs.set g.toNat { c with
        count := 0
        finalized := false
        st := ⟨0x0123456789ABCDEF, 0xFEDCBA9876543210, 0xF096A5B4C3B2E187⟩ }
      out := s.out ++ [0] }) ∧
    (s.ctx? g = none → exec (.genReset g) s = .next { s with
      fault := if s.fault = 0 then 1 else s.fault
      out := s.out ++ [1] })

/-- R97, R100: `UPDATE_BYTE` on an Active context of a block with a table: the previous full buffer is compressed
first, then the byte is stored at COUNT mod 64 and counted; every other register and byte is unchanged. -/
def Obligations.UpdateByteStoresOneByte : Prop :=
  ∀ (s : State) (g : CtxNum) (c : GenCtx) (b : Byte), s.ctx? g = some c → s.sboxValid = true →
    c.finalized = false →
      ∃ c', exec (.updateByte g b) s = .next { s with ctxs := s.ctxs.set g.toNat c', out := s.out ++ [0] } ∧
        c'.count = c.count + 1 ∧ c'.passes = c.passes ∧ c'.tiger2 = c.tiger2 ∧ c'.finalized = false ∧
        c'.dig = c.dig ∧
        (c'.st = if c.count ≠ 0 ∧ c.count.toNat % 64 = 0
          then compress s.table c.st (c.block (s.bufJunk g)) c.passes.toNat else c.st) ∧
        ∀ a, c'.buf.lookup a = if a = c.count.toNat % 64 then some b else c.buf.lookup a

/-- R101, R33: `UPDATE` on an Active context of a block with a table counts every byte; byte k lies at address
(COUNT + k) mod 64 unless a later byte of the message took that place; a place that no byte took is unchanged. -/
def Obligations.UpdateAcceptsEveryByte : Prop :=
  ∀ (s : State) (g : CtxNum) (c : GenCtx) (data : List Byte), s.ctx? g = some c → s.sboxValid = true →
    c.finalized = false →
      ∃ c', exec (.update g data) s = .next { s with ctxs := s.ctxs.set g.toNat c', out := s.out ++ [0] } ∧
        c'.count = c.count + BitVec.ofNat 64 data.length ∧ c'.passes = c.passes ∧ c'.tiger2 = c.tiger2 ∧
        c'.finalized = false ∧ c'.dig = c.dig ∧ (data = [] → c' = c) ∧
        (∀ k, k < data.length → data.length ≤ k + 64 →
          c'.buf.lookup ((c.count.toNat + k) % 64) = data[k]?) ∧
        ∀ a, (∀ k, k < data.length → a ≠ (c.count.toNat + k) % 64) → c'.buf.lookup a = c.buf.lookup a

/-- R97, R29: compression is lazy: up to 64 bytes accepted by a fresh context leave its compression state. -/
def Obligations.FirstBlockIsNotCompressedEarly : Prop :=
  ∀ (s t : State) (g : CtxNum) (c c' : GenCtx) (data : List Byte), s.ctx? g = some c → c.count = 0 →
    data.length ≤ 64 → exec (.update g data) s = .next t → t.ctx? g = some c' → c'.st = c.st

/-- R108: only the concatenation of the bytes counts, and `UPDATE_BYTE` is `UPDATE` of one byte. -/
def Obligations.ChunkingDoesNotMatter : Prop :=
  (∀ (s s1 s2 t : State) (g : CtxNum) (d1 d2 : List Byte),
    exec (.update g d1) s = .next s1 → exec (.update g d2) s1 = .next s2 →
    exec (.update g (d1 ++ d2)) s = .next t →
      t.ctxs = s2.ctxs ∧ t.tbl = s2.tbl ∧ t.sboxValid = s2.sboxValid ∧ t.fault = s2.fault) ∧
  ∀ (s : State) (g : CtxNum) (b : Byte), exec (.updateByte g b) s = exec (.update g [b]) s

/-- R102, R105, R106, R116, R117: `FINALIZE` on an Active context: the counter ends on the padded length, the context
is Finalized, `BUF` holds the last padded block, the state is the state before it compressed with it, `DIG` is the
serialisation of that state, the six data words are its halves, and every other register and byte is unchanged. -/
def Obligations.FinalizePadsAndSeals : Prop :=
  ∀ (s : State) (g : CtxNum) (c : GenCtx), s.ctx? g = some c → s.sboxValid = true → c.finalized = false →
    ∃ c' data, exec (.finalize g) s =
        .next { s with ctxs := s.ctxs.set g.toNat c', out := s.out ++ 0 :: data } ∧
      c'.finalized = true ∧ c'.passes = c.passes ∧ c'.tiger2 = c.tiger2 ∧
      c'.count = BitVec.ofNat 64 (paddedLength c.count.toNat) ∧ c'.count.toNat % 64 = 0 ∧
      c'.st = compress s.table (c.stateBeforeLastBlock s.table (s.bufJunk g)) (c'.block (s.bufJunk g))
        c.passes.toNat ∧
      Serialised c'.dig c'.st ∧ (∀ a, 24 ≤ a → c'.dig.lookup a = c.dig.lookup a) ∧
      (∀ a, c'.buf.lookup a =
        if 64 ≤ a ∨ (a < c.fill ∧ c.fill ≤ 55) then c.buf.lookup a
        else if 56 ≤ a then some (byteOf (8 * c.count) (a - 56))
        else if a = c.fill then some (if c.tiger2 then 0x80 else 0x01)
        else some 0) ∧
      data.length = 6 ∧
      ∀ d, d < 6 → data[d]? = some ((Words3.get c'.st (d / 2)).extractLsb' (32 * (d % 2)) 32)

/-- R104: a `FINALIZE` of a Finalized context answers the 24 bytes of `DIG` and changes nothing; so after a `FINALIZE`
that succeeded, on any context, another answers the same words and changes nothing. -/
def Obligations.RepeatedFinalizeChangesNothing : Prop :=
  ∀ (s : State) (g : CtxNum) (c : GenCtx), s.ctx? g = some c → s.sboxValid = true →
    (c.finalized = true → ∃ data, exec (.finalize g) s = .next { s with out := s.out ++ 0 :: data } ∧
      data.length = 6 ∧
      ∀ k, k < 24 → (unpackBytes 24 data)[k]? = some (c.dig.read (s.digJunk g) k)) ∧
    ∃ s1 data, exec (.finalize g) s = .next s1 ∧ s1.out = s.out ++ 0 :: data ∧ data.length = 6 ∧
      exec (.finalize g) s1 = .next { s1 with out := s1.out ++ 0 :: data }

/-- R123: the digest that `FINALIZE` answers is the one that 24 `DIGEST_READ`s answer. -/
def Obligations.DigestReadAgreesWithFinalize : Prop :=
  ∀ (s : State) (g : CtxNum) (c : GenCtx), s.ctx? g = some c → s.sboxValid = true →
    ∃ s1 data, exec (.finalize g) s = .next s1 ∧ s1.out = s.out ++ 0 :: data ∧
      ∀ idx : BitVec 5, idx.toNat < 24 → ∃ b, (unpackBytes 24 data)[idx.toNat]? = some b ∧
        exec (.digestRead g idx) s1 = .next { s1 with out := s1.out ++ [0, b.setWidth 32] }

/-- R120, R34, R116: `DIGEST_READ` on a Finalized context answers byte `idx mod 8` of state word `idx div 8`, and
changes nothing. -/
def Obligations.DigestReadReturnsStateByte : Prop :=
  ∀ (s : State) (g : CtxNum) (c : GenCtx) (idx : BitVec 5), s.Inv → s.ctx? g = some c → c.finalized = true →
    idx.toNat < 24 →
      exec (.digestRead g idx) s = .next { s with
        out := s.out ++ [0, (byteOf (Words3.get c.st (idx.toNat / 8)) (idx.toNat % 8)).setWidth 32] }

/-- R121: the status image, field by field; `STATUS` changes nothing, and refuses only a context that does not
exist. -/
def Obligations.StatusShowsTheFlags : Prop :=
  ∀ (s : State) (g : CtxNum),
    (∀ c, s.ctx? g = some c → ∃ v : Word32,
      exec (.status g) s = .next { s with out := s.out ++ [0, v] } ∧
      v.extractLsb' 0 4 = s.fault ∧ v.getLsbD 4 = s.sboxValid ∧ v.getLsbD 5 = c.finalized ∧
      v.getLsbD 6 = c.tiger2 ∧ v.getLsbD 7 = false ∧ v.extractLsb' 8 8 = c.passes ∧
      (v.extractLsb' 16 6).toNat = c.count.toNat % 64 ∧ v.extractLsb' 22 10 = 0) ∧
    (s.ctx? g = none → exec (.status g) s = .next { s with
      fault := if s.fault = 0 then 1 else s.fault
      out := s.out ++ [1] })

/-! ## What no command does -/

/-- R43, R113: a command of context g leaves every other context, the table and `SBOX_VALID` alone; the SBox commands
leave every context alone (R161). -/
def Obligations.CommandsTouchOnlyTheirContext : Prop :=
  ∀ (i : Instr) (s t : State), exec i s = .next t →
    (∀ g h, i.ctx? = some g → h ≠ g → t.ctx? h = s.ctx? h) ∧
    (∀ g, i.ctx? = some g → t.tbl = s.tbl ∧ t.sboxValid = s.sboxValid) ∧
    (i.ctx? = none → t.ctxs = s.ctxs) ∧ t.inp = s.inp ∧ t.epoch = s.epoch

/-- R43: what a command of context g does to that context, to `FAULT` and to the response depends only on the table,
`SBOX_VALID`, `FAULT` and the registers of context g. -/
def Obligations.OtherContextsDoNotInfluence : Prop :=
  ∀ (i : Instr) (g : CtxNum) (s s' t t' : State), i.ctx? = some g → SameForCtx g s s' →
    exec i s = .next t → exec i s' = .next t' →
      t.ctx? g = t'.ctx? g ∧ t.fault = t'.fault ∧ ∃ r, t.out = s.out ++ r ∧ t'.out = s'.out ++ r

/-- R22, R95, R172: a context becomes Finalized only by `FINALIZE` and Active again only by `GEN_RESET` and
`GEN_NEW`. -/
def Obligations.FinalizedChangesOnlyAsStated : Prop :=
  ∀ (i : Instr) (s t : State) (g : CtxNum) (c c' : GenCtx), exec i s = .next t → s.ctx? g = some c →
    t.ctx? g = some c' →
      (c.finalized = false → c'.finalized = true → i = .finalize g) ∧
      (c.finalized = true → c'.finalized = false → i = .genReset g ∨ ∃ p b, i = .genNew g p b)

/-- R20, R21: only `GEN_NEW` changes the pass count or the padding mode, and it stores at least 3. -/
def Obligations.OnlyGenNewSetsPassesAndMode : Prop :=
  ∀ (i : Instr) (s t : State) (g : CtxNum) (c c' : GenCtx), exec i s = .next t → s.ctx? g = some c →
    t.ctx? g = some c' → (c'.passes ≠ c.passes ∨ c'.tiger2 ≠ c.tiger2) →
      ∃ p b, i = .genNew g p b ∧ c'.passes.toNat = max 3 p.toNat ∧ c'.tiger2 = b

/-- R25, R115: while a context stays Finalized its cached digest does not change. -/
def Obligations.CachedDigestIsImmutable : Prop :=
  ∀ (i : Instr) (s t : State) (g : CtxNum) (c c' : GenCtx), exec i s = .next t → s.ctx? g = some c →
    t.ctx? g = some c' → c.finalized = true → c'.dig = c.dig

/-! ## Invariants -/

/-- R26, R28: the invariants hold after reset, for every number of contexts that R5 allows (`State.reset` has one, log 1;
the form of the invariants is the model's, log 14). -/
def Obligations.InvariantsHoldAtReset : Prop :=
  State.reset.Inv ∧ ∀ n, 1 ≤ n → n ≤ 16 → (State.resetWith n).Inv

/-- R26, R130, R156: every step keeps the invariants (their form is the model's, log 14). -/
def Obligations.StepKeepsInvariants : Prop :=
  ∀ s t : State, s.Inv → step s = .next t → t.Inv

/-- R30, R35: every step keeps every address space in canonical form: addresses strictly rising and in range (the listed
form is the model's choice, log 2). -/
def Obligations.StepKeepsCanonicalMemory : Prop :=
  ∀ s t : State, s.Canonical → step s = .next t → t.Canonical

/-- R5, R10: no step changes the number of contexts. -/
def Obligations.StepKeepsContextCount : Prop :=
  ∀ s t : State, step s = .next t → t.ngen = s.ngen

/-- R156, R151: no command's response or effect depends on the unspecified content: it is the same whatever the reset
draw was (that a number stands for the draw is the model's choice, log 2). -/
def Obligations.NothingDependsOnTheResetDraw : Prop :=
  ∀ (i : Instr) (s t : State) (e : Nat), s.Inv → exec i s = .next t →
    exec i { s with epoch := e } = .next { t with epoch := e }

/-- R26 (d): a byte of `BUF` is read only after it has been written, so what `BUF` held after reset does not matter to
the byte-store step, the padding or the digest. -/
def Obligations.BufferIsReadOnlyWhereWritten : Prop :=
  ∀ (t : Table) (junk junk' : Nat → Byte) (c : GenCtx) (data : List Byte),
    Memory.Written (min c.count.toNat 64) c.buf →
      c.storeBytes t junk data = c.storeBytes t junk' data ∧
      (c.pad t junk).seal t junk = (c.pad t junk').seal t junk'

/-! ## The digest of a message -/

/-- R111, R110, R105: `GEN_RESET`, `UPDATE` and `FINALIZE` of a message answer the digest that `Compress` gives over
the padded blocks from `IV`, whatever the context did before. The bound on the message is the one up to which the bit
length is the true one (log 7); a message that one `UPDATE` cannot carry is given to `exec` all the same (log 11). -/
def Obligations.HashCommandsComputeTheDigest : Prop :=
  ∀ (s : State) (g : CtxNum) (c : GenCtx) (msg : List Byte), s.ctx? g = some c → s.sboxValid = true →
    msg.length < 2 ^ 61 →
      ∃ t c', execAll (hashCommands g msg) s = .next t ∧ t.ctx? g = some c' ∧ c'.finalized = true ∧
        c'.st = messageState s.table c.passes.toNat (markerByte c.tiger2) msg ∧
        t.out = s.out ++ [0, 0, 0] ++ packBytes (stateBytes c'.st)

/-- R110: the same message under the same table, pass count and padding mode answers the same words, in any block and
any context, whatever either did before (the bound and the length of one `UPDATE`: logs 7 and 11). -/
def Obligations.DigestDependsOnMessageAndModeAlone : Prop :=
  ∀ (s s' t t' : State) (g g' : CtxNum) (c c' : GenCtx) (msg : List Byte),
    s.ctx? g = some c → s'.ctx? g' = some c' → s.sboxValid = true → s'.sboxValid = true →
    s.table = s'.table → c.passes = c'.passes → c.tiger2 = c'.tiger2 → msg.length < 2 ^ 61 →
    execAll (hashCommands g msg) s = .next t → execAll (hashCommands g' msg) s' = .next t' →
      ∃ r, t.out = s.out ++ r ∧ t'.out = s'.out ++ r

/-- R105, R106: the padded message is a whole number of blocks: the message, the marker, zeros and the bit length. -/
def Obligations.PaddedMessageIsWholeBlocks : Prop :=
  ∀ (marker : Byte) (msg : List Byte),
    (padMessage marker msg).length = paddedLength msg.length ∧ paddedLength msg.length % 64 = 0 ∧
    msg.length + 9 ≤ paddedLength msg.length ∧ paddedLength msg.length ≤ msg.length + 72 ∧
    (padMessage marker msg).take msg.length = msg ∧ (padMessage marker msg)[msg.length]? = some marker ∧
    (∀ k, msg.length < k → k + 8 < paddedLength msg.length → (padMessage marker msg)[k]? = some 0) ∧
    (padMessage marker msg).drop (paddedLength msg.length - 8) = wordToBytes (BitVec.ofNat 64 (8 * msg.length))

/-! ## Functions of a digest -/

/-- R125: the order of digests: the first differing byte decides, byte 0 first. -/
def Obligations.DigestOrderIsLexicographic : Prop :=
  ∀ d d' : List Byte, d.length = 24 → d'.length = 24 →
    (digestLt d d' = true ↔ ∃ i a b, i < 24 ∧ (∀ j, j < i → d[j]? = d'[j]?) ∧ d[i]? = some a ∧ d'[i]? = some b ∧
      a.toNat < b.toNat)

/-- R126: the text form is 48 characters from 0-9A-F and determines the digest. -/
def Obligations.DigestTextIsFaithful : Prop :=
  (∀ d : List Byte, d.length = 24 → (digestText d).length = 48 ∧
    ∀ ch ∈ digestText d, ch ∈ "0123456789ABCDEF".toList) ∧
  ∀ d d' : List Byte, digestText d = digestText d' → d = d'

/-- R127: the scalar hash of a digest is the exclusive-or of its three words, folded again on a 32-bit host
(`HOSTW` is an argument, log 9). -/
def Obligations.ScalarHashFoldsTheWords : Prop :=
  ∀ st : Words3,
    scalarHash .w64 (stateBytes st) = st.w0 ^^^ st.w1 ^^^ st.w2 ∧
    scalarHash .w32 (stateBytes st) =
      (st.w0 ^^^ st.w1 ^^^ st.w2).extractLsb' 0 32 ^^^ (st.w0 ^^^ st.w1 ^^^ st.w2).extractLsb' 32 32
end

