-- ==== Sys2Proof/Laws/Eval.lean ====
section
/-! SUPPORT. The `eval…` functions change no value: each is application. -/

namespace Sys2Proof.Laws
open Sys2Proof.Machine

@[simp] theorem evalNat_eq {α : Type} (n : Nat) (k : Nat → α) : evalNat n k = k n := by
  cases n <;> rfl

@[simp] theorem evalBits_eq {α : Type} {w : Nat} (x : BitVec w) (k : BitVec w → α) : evalBits x k = k x := by
  simp [evalBits]

@[simp] theorem evalWords3_eq {α : Type} (v : Words3) (k : Words3 → α) : evalWords3 v k = k v := by
  simp [evalWords3]

@[simp] theorem evalWords8_eq {α : Type} (x : Words8) (k : Words8 → α) : evalWords8 x k = k x := by
  simp [evalWords8]

@[simp] theorem evalMemory_eq {α : Type} (m : Memory) (k : Memory → α) : evalMemory m k = k m := by
  induction m generalizing k with
  | nil => rfl
  | cons cell rest ih => simp [evalMemory, ih]

@[simp] theorem evalTable_eq {α : Type} (t : Table) (k : Table → α) : evalTable t k = k t := by
  simp [evalTable]

@[simp] theorem evalGenCtx_eq {α : Type} (c : GenCtx) (k : GenCtx → α) : evalGenCtx c k = k c := by
  simp [evalGenCtx]

@[simp] theorem evalGenLoop_eq {α : Type} (l : GenLoop) (k : GenLoop → α) : evalGenLoop l k = k l := by
  simp [evalGenLoop]

end Sys2Proof.Laws
end

