-- ==== Sys2Proof/Laws/Compress.lean ====
section
/-! SUPPORT. The laws of the compression function: the additional passes one at a time. -/

namespace Sys2Proof.Laws
open Sys2Proof.Machine

@[simp] theorem extraPasses_zero (t : Table) (v : Words3) (x : Words8) : extraPasses t 0 v x = v := rfl

/-- One additional pass: the schedule, the pass with multiplier 9, and the rotation (R85, R87). -/
theorem extraPasses_succ (t : Table) (n : Nat) (v : Words3) (x : Words8) :
    extraPasses t (n + 1) v x =
      extraPasses t n
        ⟨(pass t v.w0 v.w1 v.w2 (schedule x) 9).w2, (pass t v.w0 v.w1 v.w2 (schedule x) 9).w0,
          (pass t v.w0 v.w1 v.w2 (schedule x) 9).w1⟩ (schedule x) := by
  simp only [extraPasses, evalWords8_eq, evalWords3_eq]

end Sys2Proof.Laws
end

