-- ==== Sys2Proof/Laws/Encoding.lean ====
section
/-! SUPPORT. The laws of the encoding: the fields of a command word that is built from its fields, and payload bytes
that are packed and unpacked again. -/

namespace Sys2Proof.Laws

/-- The field of a concatenation that lies in its low part. -/
theorem extract_append_low {a b : Nat} (x : BitVec a) (y : BitVec b) : (x ++ y).extractLsb' 0 b = y := by
  apply BitVec.eq_of_getLsbD_eq
  intro i hi
  rw [BitVec.getLsbD_extractLsb', BitVec.getLsbD_append]
  simp [hi]

/-- The field of a concatenation that lies in its high part. -/
theorem extract_append_high {a b : Nat} (x : BitVec a) (y : BitVec b) : (x ++ y).extractLsb' b a = x := by
  apply BitVec.eq_of_getLsbD_eq
  intro i hi
  rw [BitVec.getLsbD_extractLsb', BitVec.getLsbD_append]
  simp [hi]

/-- A field that lies in the low part of a concatenation is that part's field. -/
theorem extract_append_of_le {a b lo n : Nat} (x : BitVec a) (y : BitVec b) (h : lo + n ≤ b) :
    (x ++ y).extractLsb' lo n = y.extractLsb' lo n := by
  apply BitVec.eq_of_getLsbD_eq
  intro i hi
  rw [BitVec.getLsbD_extractLsb', BitVec.getLsbD_extractLsb', BitVec.getLsbD_append]
  simp [hi, show lo + i < b by omega]

@[simp] theorem opOf_commandWord (op : BitVec 4) (ctx : CtxNum) (arg : BitVec 24) :
    opOf (commandWord op ctx arg) = op := by
  apply BitVec.eq_of_getLsbD_eq
  intro i hi
  unfold opOf commandWord
  rw [BitVec.getLsbD_extractLsb', BitVec.getLsbD_append, BitVec.getLsbD_append]
  rw [if_neg (by omega), if_neg (by omega)]
  simp only [hi, decide_true, Bool.true_and]
  congr 1
  omega

@[simp] theorem ctxOf_commandWord (op : BitVec 4) (ctx : CtxNum) (arg : BitVec 24) :
    ctxOf (commandWord op ctx arg) = ctx := by
  apply BitVec.eq_of_getLsbD_eq
  intro i hi
  unfold ctxOf commandWord
  rw [BitVec.getLsbD_extractLsb', BitVec.getLsbD_append, BitVec.getLsbD_append]
  rw [if_neg (by omega), if_pos (by omega)]
  simp only [hi, decide_true, Bool.true_and]
  congr 1
  omega

/-- A field inside `arg` is the same field of the command word (R46). -/
theorem extract_commandWord (op : BitVec 4) (ctx : CtxNum) (arg : BitVec 24) {lo n : Nat} (h : lo + n ≤ 24) :
    (commandWord op ctx arg).extractLsb' lo n = arg.extractLsb' lo n := by
  unfold commandWord
  exact extract_append_of_le (op ++ ctx) arg h

@[simp] theorem argOf_commandWord (op : BitVec 4) (ctx : CtxNum) (arg : BitVec 24) :
    argOf (commandWord op ctx arg) = arg := by
  unfold argOf
  rw [extract_commandWord _ _ _ (by omega)]
  simp

/-- The four bytes of a packed word are the bytes packed (R48). -/
@[simp] theorem wordBytes_packWord (b0 b1 b2 b3 : Byte) : wordBytes (packWord b0 b1 b2 b3) = [b0, b1, b2, b3] := by
  have key : ∀ lo, (packWord b0 b1 b2 b3).extractLsb' lo 8 =
      ((b3 ++ b2 ++ b1 ++ b0 : BitVec (8 + 8 + 8 + 8))).extractLsb' lo 8 := fun _ => rfl
  simp only [wordBytes, key]
  refine congrArg₂ _ (extract_append_low _ _) (congrArg₂ _ ?_ (congrArg₂ _ ?_ (congrArg₂ _ ?_ rfl)))
  all_goals
    apply BitVec.eq_of_getLsbD_eq
    intro i hi
    rw [BitVec.getLsbD_extractLsb']
    iterate 3 rw [BitVec.getLsbD_append]
    simp only [hi, decide_true, Bool.true_and]
    split_ifs <;> first | omega | (congr 1; omega)

/-- Four bytes to a payload word, rounded up (R47). -/
@[simp] theorem packBytes_length (bs : List Byte) : (packBytes bs).length = (bs.length + 3) / 4 := by
  induction bs using packBytes.induct with
  | case1 => rfl
  | case2 => simp [packBytes]
  | case3 => simp [packBytes]
  | case4 => simp [packBytes]
  | case5 a b c d rest ih => simp [packBytes, ih]; omega

/-- Unpacking what was packed gives the bytes back (R48). -/
theorem unpackBytes_packBytes (bs : List Byte) : unpackBytes bs.length (packBytes bs) = bs := by
  induction bs using packBytes.induct with
  | case1 => rfl
  | case2 => simp [packBytes, unpackBytes]
  | case3 => simp [packBytes, unpackBytes]
  | case4 => simp [packBytes, unpackBytes]
  | case5 a b c d rest ih =>
    simp only [unpackBytes] at ih
    simp [packBytes, unpackBytes, ih]

/-- No more bytes are unpacked than asked for. -/
theorem unpackBytes_length_le (n : Nat) (ws : List Word32) : (unpackBytes n ws).length ≤ n := by
  simp [unpackBytes]

end Sys2Proof.Laws
end

