-- ==== Sys2Proof/Laws/Memory.lean ====
section
/-! SUPPORT. The laws of the internal address spaces: a read after a write, the frame of a write, and that every
operation keeps the canonical form, in which equal contents are equal data. -/

namespace Sys2Proof.Laws
open Sys2Proof.Machine

@[simp] theorem lookup_nil (a : Nat) : Memory.lookup [] a = none := rfl

/-- What every address holds after a byte has been written. -/
theorem lookup_write (m : Memory) (a x : Nat) (b : Byte) :
    (m.write a b).lookup x = if x = a then some b else m.lookup x := by
  induction m with
  | nil => simp only [Memory.write, Memory.lookup, eq_comm]
  | cons cell rest ih =>
    obtain ⟨k, c⟩ := cell
    simp only [Memory.write]
    split
    · by_cases h : x = a
      · simp [Memory.lookup, h]
      · simp [Memory.lookup, h, Ne.symm h]
    · split
      · rename_i _ hk
        by_cases h : x = a
        · simp [Memory.lookup, h]
        · simp [Memory.lookup, h, Ne.symm h, ← hk]
      · simp only [Memory.lookup, ih]
        split <;> split <;> first | rfl | omega

/-- A read at the address just written gives the byte written. -/
@[simp] theorem read_write_same (junk : Nat → Byte) (m : Memory) (a : Nat) (b : Byte) :
    (m.write a b).read junk a = b := by
  simp [Memory.read, lookup_write]

/-- A write leaves every other address alone. -/
theorem read_write_other (junk : Nat → Byte) (m : Memory) {a x : Nat} (b : Byte) (h : x ≠ a) :
    (m.write a b).read junk x = m.read junk x := by
  simp [Memory.read, lookup_write, h]

/-- What every address holds after bytes have been written from address `a` on. -/
theorem lookup_writeBytes (m : Memory) (a x : Nat) (bs : List Byte) :
    (m.writeBytes a bs).lookup x = if a ≤ x ∧ x < a + bs.length then bs[x - a]? else m.lookup x := by
  induction bs generalizing m a with
  | nil => simp only [Memory.writeBytes, List.length_nil]; rw [if_neg (by omega)]
  | cons b bs ih =>
    simp only [Memory.writeBytes, ih, lookup_write, List.length_cons]
    by_cases h1 : a + 1 ≤ x ∧ x < a + 1 + bs.length
    · rw [if_pos h1, if_pos (by omega)]
      obtain ⟨n, hn⟩ : ∃ n, x - a = n + 1 := ⟨x - a - 1, by omega⟩
      rw [hn, List.getElem?_cons_succ, show x - (a + 1) = n by omega]
    · rw [if_neg h1]
      by_cases h2 : x = a
      · subst h2; rw [if_pos (by omega)]; simp
      · rw [if_neg h2, if_neg (by omega)]

@[simp] theorem wordToBytes_length (w : Word) : (wordToBytes w).length = 8 := by simp [wordToBytes]

/-- What every address holds after an 8-byte write (R31). -/
theorem lookup_write8 (m : Memory) (a x : Nat) (w : Word) :
    (m.write8 a w).lookup x = if a ≤ x ∧ x < a + 8 then some (byteOf w (x - a)) else m.lookup x := by
  simp only [Memory.write8, lookup_writeBytes, wordToBytes_length]
  split
  · rename_i h
    simp [wordToBytes, show x - a < 8 by omega]
  · rfl

theorem wfFrom_mono {size lo lo' : Nat} {m : Memory} (h : Memory.wfFrom size lo m = true) (hle : lo' ≤ lo) :
    Memory.wfFrom size lo' m = true := by
  cases m with
  | nil => rfl
  | cons cell rest =>
    obtain ⟨k, b⟩ := cell
    simp only [Memory.wfFrom, Bool.and_eq_true, decide_eq_true_eq] at h ⊢
    exact ⟨⟨by omega, h.1.2⟩, h.2⟩

theorem wfFrom_write {size lo a : Nat} {m : Memory} (b : Byte) (h : Memory.wfFrom size lo m = true)
    (hlo : lo ≤ a) (ha : a < size) : Memory.wfFrom size lo (m.write a b) = true := by
  induction m generalizing lo with
  | nil => simp [Memory.write, Memory.wfFrom, hlo, ha]
  | cons cell rest ih =>
    obtain ⟨k, c⟩ := cell
    simp only [Memory.wfFrom, Bool.and_eq_true, decide_eq_true_eq] at h
    simp only [Memory.write]
    split
    · rename_i hak
      simp only [Memory.wfFrom, Bool.and_eq_true, decide_eq_true_eq]
      exact ⟨⟨hlo, ha⟩, ⟨by omega, h.1.2⟩, h.2⟩
    · split
      · rename_i _ hk
        subst hk
        simp only [Memory.wfFrom, Bool.and_eq_true, decide_eq_true_eq]
        exact ⟨⟨hlo, ha⟩, h.2⟩
      · simp only [Memory.wfFrom, Bool.and_eq_true, decide_eq_true_eq]
        exact ⟨h.1, ih h.2 (by omega)⟩

/-- A write in range keeps the canonical form. -/
theorem wf_write {size a : Nat} {m : Memory} (b : Byte) (h : m.wf size = true) (ha : a < size) :
    (m.write a b).wf size = true :=
  wfFrom_write b h (Nat.zero_le a) ha

/-- So do several writes in range. -/
theorem wf_writeBytes {size : Nat} {m : Memory} {a : Nat} {bs : List Byte} (h : m.wf size = true)
    (ha : a + bs.length ≤ size) : (m.writeBytes a bs).wf size = true := by
  induction bs generalizing m a with
  | nil => exact h
  | cons b bs ih =>
    simp only [List.length_cons] at ha
    exact ih (wf_write b h (by omega)) (by omega)

/-- So does an 8-byte write in range. -/
theorem wf_write8 {size : Nat} {m : Memory} {a : Nat} (w : Word) (h : m.wf size = true) (ha : a + 8 ≤ size) :
    (m.write8 a w).wf size = true :=
  wf_writeBytes h (by simpa using ha)

/-- The serialisation of a state keeps the canonical form of `DIG`. -/
theorem wf_serialise {dig : Memory} (st : Words3) (h : dig.wf 24 = true) : (serialise dig st).wf 24 = true :=
  wf_write8 _ (wf_write8 _ (wf_write8 _ h (by omega)) (by omega)) (by omega)

/-- The memory of `State.reset` is in canonical form. -/
@[simp] theorem wf_nil (size : Nat) : Memory.wf size [] = true := rfl

/-- Nothing is listed below the first address of a canonical form. -/
theorem lookup_of_wfFrom {size lo : Nat} {m : Memory} (h : Memory.wfFrom size lo m = true) {a : Nat} (ha : a < lo) :
    m.lookup a = none := by
  induction m generalizing lo with
  | nil => rfl
  | cons cell rest ih =>
    obtain ⟨k, b⟩ := cell
    simp only [Memory.wfFrom, Bool.and_eq_true, decide_eq_true_eq] at h
    simp only [Memory.lookup]
    rw [if_neg (by omega)]
    exact ih h.2 (by omega)

/-- Nothing is listed outside the address space. -/
theorem lookup_none_of_size_le {size lo : Nat} {m : Memory} (h : Memory.wfFrom size lo m = true) {a : Nat}
    (ha : size ≤ a) : m.lookup a = none := by
  induction m generalizing lo with
  | nil => rfl
  | cons cell rest ih =>
    obtain ⟨k, b⟩ := cell
    simp only [Memory.wfFrom, Bool.and_eq_true, decide_eq_true_eq] at h
    simp only [Memory.lookup]
    rw [if_neg (by omega)]
    exact ih h.2

theorem wfFrom_ext {size lo : Nat} {m m' : Memory} (h : Memory.wfFrom size lo m = true)
    (h' : Memory.wfFrom size lo m' = true) (heq : ∀ a, m.lookup a = m'.lookup a) : m = m' := by
  induction m generalizing lo m' with
  | nil =>
    cases m' with
    | nil => rfl
    | cons cell rest => have := heq cell.1; simp [Memory.lookup] at this
  | cons cell rest ih =>
    obtain ⟨k, b⟩ := cell
    cases m' with
    | nil => have := heq k; simp [Memory.lookup] at this
    | cons cell' rest' =>
      obtain ⟨k', b'⟩ := cell'
      simp only [Memory.wfFrom, Bool.and_eq_true, decide_eq_true_eq] at h h'
      have hk : k = k' := by
        rcases Nat.lt_trichotomy k k' with hlt | heq' | hgt
        · have := heq k
          simp only [Memory.lookup] at this
          rw [if_pos trivial, if_neg (by omega), lookup_of_wfFrom h'.2 (by omega)] at this
          cases this
        · exact heq'
        · have := heq k'
          simp only [Memory.lookup] at this
          rw [if_neg (by omega), if_pos trivial, lookup_of_wfFrom h.2 (by omega)] at this
          cases this
      subst hk
      have hb : b = b' := by simpa [Memory.lookup] using heq k
      subst hb
      have : rest = rest' := ih h.2 h'.2 fun a => by
        by_cases ha : k = a
        · subst ha; rw [lookup_of_wfFrom h.2 (by omega), lookup_of_wfFrom h'.2 (by omega)]
        · simpa [Memory.lookup, ha] using heq a
      rw [this]

/-- In canonical form, equal contents are equal data. -/
theorem wf_ext {size : Nat} {m m' : Memory} (h : m.wf size = true) (h' : m'.wf size = true)
    (heq : ∀ a, m.lookup a = m'.lookup a) : m = m' :=
  wfFrom_ext h h' heq

/-- A byte of a word assembled from bytes. -/
theorem byteOf_wordFromBytes (f : Nat → Byte) {j : Nat} (hj : j < 8) : byteOf (wordFromBytes f) j = f j := by
  apply BitVec.eq_of_getLsbD_eq
  intro i hi
  unfold byteOf wordFromBytes
  rw [BitVec.getLsbD_extractLsb']
  iterate 7 rw [BitVec.getLsbD_append]
  interval_cases j <;> simp only [hi, decide_true, Bool.true_and] <;> split_ifs <;>
    first | omega | (congr 1; omega)

end Sys2Proof.Laws
end

