-- ==== Sys2Proof/Laws/State.lean ====
section
/-! SUPPORT. What each field of the state is after each update: one lemma per field per update. -/

namespace Sys2Proof.Laws
open Sys2Proof.Machine

section respond
variable (s : State) (data : List Word32)

@[simp] theorem respond_tbl : (s.respond data).tbl = s.tbl := rfl
@[simp] theorem respond_sboxValid : (s.respond data).sboxValid = s.sboxValid := rfl
@[simp] theorem respond_fault : (s.respond data).fault = s.fault := rfl
@[simp] theorem respond_ctxs : (s.respond data).ctxs = s.ctxs := rfl
@[simp] theorem respond_inp : (s.respond data).inp = s.inp := rfl
@[simp] theorem respond_out : (s.respond data).out = s.out ++ statusWord 0 :: data := rfl
@[simp] theorem respond_epoch : (s.respond data).epoch = s.epoch := rfl

end respond

section raise
variable (s : State) (e : ErrCode)

@[simp] theorem raise_tbl : (s.raise e).tbl = s.tbl := rfl
@[simp] theorem raise_sboxValid : (s.raise e).sboxValid = s.sboxValid := rfl
@[simp] theorem raise_fault : (s.raise e).fault = if s.fault = 0 then e.code else s.fault := rfl
@[simp] theorem raise_ctxs : (s.raise e).ctxs = s.ctxs := rfl
@[simp] theorem raise_inp : (s.raise e).inp = s.inp := rfl
@[simp] theorem raise_out : (s.raise e).out = s.out ++ [statusWord e.code] := rfl
@[simp] theorem raise_epoch : (s.raise e).epoch = s.epoch := rfl

end raise

section setCtx
variable (s : State) (g : CtxNum) (c : GenCtx)

@[simp] theorem setCtx_tbl : (s.setCtx g c).tbl = s.tbl := rfl
@[simp] theorem setCtx_sboxValid : (s.setCtx g c).sboxValid = s.sboxValid := rfl
@[simp] theorem setCtx_fault : (s.setCtx g c).fault = s.fault := rfl
@[simp] theorem setCtx_ctxs : (s.setCtx g c).ctxs = s.ctxs.set g.toNat c := rfl
@[simp] theorem setCtx_inp : (s.setCtx g c).inp = s.inp := rfl
@[simp] theorem setCtx_out : (s.setCtx g c).out = s.out := rfl
@[simp] theorem setCtx_epoch : (s.setCtx g c).epoch = s.epoch := rfl

end setCtx

section buildTable
variable (s : State) (t : Table)

@[simp] theorem buildTable_tbl : (s.buildTable t).tbl = t.toMemory := rfl
@[simp] theorem buildTable_sboxValid : (s.buildTable t).sboxValid = true := rfl
@[simp] theorem buildTable_fault : (s.buildTable t).fault = s.fault := rfl
@[simp] theorem buildTable_ctxs : (s.buildTable t).ctxs = s.ctxs := rfl
@[simp] theorem buildTable_inp : (s.buildTable t).inp = s.inp := rfl
@[simp] theorem buildTable_out : (s.buildTable t).out = s.out ++ [statusWord 0] := rfl
@[simp] theorem buildTable_epoch : (s.buildTable t).epoch = s.epoch := rfl

end buildTable

section hostReset
variable (s : State) (rest : List HostEvent)

@[simp] theorem hostReset_tbl : (s.hostReset rest).tbl = [] := rfl
@[simp] theorem hostReset_sboxValid : (s.hostReset rest).sboxValid = false := rfl
@[simp] theorem hostReset_fault : (s.hostReset rest).fault = 0 := rfl
@[simp] theorem hostReset_ctxs : (s.hostReset rest).ctxs = List.replicate s.ngen GenCtx.reset := rfl
@[simp] theorem hostReset_inp : (s.hostReset rest).inp = rest := rfl
@[simp] theorem hostReset_out : (s.hostReset rest).out = s.out := rfl
@[simp] theorem hostReset_epoch : (s.hostReset rest).epoch = s.epoch + 1 := rfl

end hostReset

section inp
variable (s : State) (es : List HostEvent)

@[simp] theorem withInp_ctx? (g : CtxNum) : State.ctx? { s with inp := es } g = s.ctx? g := rfl
@[simp] theorem withInp_ngen : State.ngen { s with inp := es } = s.ngen := rfl
@[simp] theorem withInp_table : State.table { s with inp := es } = s.table := rfl

end inp

/-- The four named views of a state after the updates that leave their fields alone. -/
@[simp] theorem respond_ctx? (s : State) (data : List Word32) (g : CtxNum) : (s.respond data).ctx? g = s.ctx? g := rfl
@[simp] theorem raise_ctx? (s : State) (e : ErrCode) (g : CtxNum) : (s.raise e).ctx? g = s.ctx? g := rfl
@[simp] theorem buildTable_ctx? (s : State) (t : Table) (g : CtxNum) : (s.buildTable t).ctx? g = s.ctx? g := rfl
@[simp] theorem respond_ngen (s : State) (data : List Word32) : (s.respond data).ngen = s.ngen := rfl
@[simp] theorem raise_ngen (s : State) (e : ErrCode) : (s.raise e).ngen = s.ngen := rfl
@[simp] theorem buildTable_ngen (s : State) (t : Table) : (s.buildTable t).ngen = s.ngen := rfl
@[simp] theorem respond_table (s : State) (data : List Word32) : (s.respond data).table = s.table := rfl
@[simp] theorem raise_table (s : State) (e : ErrCode) : (s.raise e).table = s.table := rfl
@[simp] theorem setCtx_table (s : State) (g : CtxNum) (c : GenCtx) : (s.setCtx g c).table = s.table := rfl
@[simp] theorem setCtx_bufJunk (s : State) (g h : CtxNum) (c : GenCtx) : (s.setCtx g c).bufJunk h = s.bufJunk h := rfl

@[simp] theorem setCtx_ngen (s : State) (g : CtxNum) (c : GenCtx) : (s.setCtx g c).ngen = s.ngen := by
  simp [State.ngen]

@[simp] theorem hostReset_ngen (s : State) (rest : List HostEvent) : (s.hostReset rest).ngen = s.ngen := by
  simp [State.ngen]

/-- A context number names a context exactly when it is below `NGEN` (R5). -/
theorem ctx?_isSome_iff (s : State) (g : CtxNum) : (s.ctx? g).isSome = true ↔ g.toNat < s.ngen := by
  simp [State.ctx?, State.ngen]

theorem ctx?_eq_none_iff (s : State) (g : CtxNum) : s.ctx? g = none ↔ s.ngen ≤ g.toNat := by
  simp [State.ctx?, State.ngen]

theorem ctx?_mem {s : State} {g : CtxNum} {c : GenCtx} (h : s.ctx? g = some c) : c ∈ s.ctxs :=
  List.mem_of_getElem? h

theorem ctx?_setCtx_same {s : State} {g : CtxNum} {c : GenCtx} (h : s.ctx? g = some c) (d : GenCtx) :
    (s.setCtx g d).ctx? g = some d := by
  have hlt : g.toNat < s.ctxs.length := by
    have := (ctx?_isSome_iff s g).mp (by simp [h])
    simpa [State.ngen] using this
  simp [State.ctx?, List.getElem?_set_self hlt]

theorem ctx?_setCtx_other {s : State} {g h : CtxNum} (hne : h ≠ g) (d : GenCtx) :
    (s.setCtx g d).ctx? h = s.ctx? h := by
  have : g.toNat ≠ h.toNat := fun e => hne (BitVec.eq_of_toNat_eq e.symm)
  simp [State.ctx?, List.getElem?_set_ne this]

end Sys2Proof.Laws
end

