-- ==== Sys2Proof/Laws/Generator.lean ====
section
/-! SUPPORT. The laws of the byte-store step and of the padding: which registers they change, how the counter moves,
and that the stored bytes keep the canonical form. -/

namespace Sys2Proof.Laws
open Sys2Proof.Machine

section compressBuffer
variable (t : Table) (junk : Nat → Byte) (c : GenCtx)

@[simp] theorem compressBuffer_count : (c.compressBuffer t junk).count = c.count := rfl
@[simp] theorem compressBuffer_passes : (c.compressBuffer t junk).passes = c.passes := rfl
@[simp] theorem compressBuffer_tiger2 : (c.compressBuffer t junk).tiger2 = c.tiger2 := rfl
@[simp] theorem compressBuffer_finalized : (c.compressBuffer t junk).finalized = c.finalized := rfl
@[simp] theorem compressBuffer_buf : (c.compressBuffer t junk).buf = c.buf := rfl
@[simp] theorem compressBuffer_dig : (c.compressBuffer t junk).dig = c.dig := rfl

/-- `CompressBuffer` replaces the state by its compression with the buffer's block (R96). -/
@[simp] theorem compressBuffer_st :
    (c.compressBuffer t junk).st = compress t c.st (c.block junk) c.passes.toNat := by
  simp [GenCtx.compressBuffer]

end compressBuffer

section storeByte
variable (t : Table) (junk : Nat → Byte) (c : GenCtx) (b : Byte)

/-- The state after a byte: compressed first if a full buffer waits, else unchanged (R97). -/
theorem storeByte_st : (c.storeByte t junk b).st =
    if c.fullPending then compress t c.st (c.block junk) c.passes.toNat else c.st := by
  simp only [GenCtx.storeByte]
  split <;> simp

@[simp] theorem storeByte_count : (c.storeByte t junk b).count = c.count + 1 := by
  simp only [GenCtx.storeByte]; split <;> rfl

@[simp] theorem storeByte_passes : (c.storeByte t junk b).passes = c.passes := by
  simp only [GenCtx.storeByte]; split <;> rfl

@[simp] theorem storeByte_tiger2 : (c.storeByte t junk b).tiger2 = c.tiger2 := by
  simp only [GenCtx.storeByte]; split <;> rfl

@[simp] theorem storeByte_finalized : (c.storeByte t junk b).finalized = c.finalized := by
  simp only [GenCtx.storeByte]; split <;> rfl

@[simp] theorem storeByte_dig : (c.storeByte t junk b).dig = c.dig := by
  simp only [GenCtx.storeByte]; split <;> rfl

/-- The byte is stored at the position that the counter gave (R97, R33). -/
@[simp] theorem storeByte_buf : (c.storeByte t junk b).buf = c.buf.write c.fill b := by
  simp only [GenCtx.storeByte]; split <;> rfl

end storeByte

section storeBytes
variable (t : Table) (junk : Nat → Byte)

@[simp] theorem storeBytes_nil (c : GenCtx) : c.storeBytes t junk [] = c := rfl

@[simp] theorem storeBytes_cons (c : GenCtx) (b : Byte) (bs : List Byte) :
    c.storeBytes t junk (b :: bs) = (c.storeByte t junk b).storeBytes t junk bs := by
  simp [GenCtx.storeBytes]

/-- `storeBytes` is the byte-store step once per byte, in order (R101). -/
theorem storeBytes_eq_foldl (c : GenCtx) (bs : List Byte) :
    c.storeBytes t junk bs = bs.foldl (fun c b => c.storeByte t junk b) c := by
  induction bs generalizing c with
  | nil => rfl
  | cons b bs ih => simp [ih]

@[simp] theorem storeBytes_passes (c : GenCtx) (bs : List Byte) : (c.storeBytes t junk bs).passes = c.passes := by
  induction bs generalizing c with
  | nil => rfl
  | cons b bs ih => simp [ih]

@[simp] theorem storeBytes_tiger2 (c : GenCtx) (bs : List Byte) : (c.storeBytes t junk bs).tiger2 = c.tiger2 := by
  induction bs generalizing c with
  | nil => rfl
  | cons b bs ih => simp [ih]

@[simp] theorem storeBytes_finalized (c : GenCtx) (bs : List Byte) :
    (c.storeBytes t junk bs).finalized = c.finalized := by
  induction bs generalizing c with
  | nil => rfl
  | cons b bs ih => simp [ih]

@[simp] theorem storeBytes_dig (c : GenCtx) (bs : List Byte) : (c.storeBytes t junk bs).dig = c.dig := by
  induction bs generalizing c with
  | nil => rfl
  | cons b bs ih => simp [ih]

/-- Each byte counts one, modulo 2^64 (R19, R109). -/
theorem storeBytes_count (c : GenCtx) (bs : List Byte) :
    (c.storeBytes t junk bs).count = c.count + BitVec.ofNat 64 bs.length := by
  induction bs generalizing c with
  | nil => simp
  | cons b bs ih =>
    simp only [storeBytes_cons, ih, storeByte_count, List.length_cons]
    rw [BitVec.ofNat_add, BitVec.add_assoc, BitVec.add_comm (BitVec.ofNat 64 bs.length)]
    rfl

theorem fill_lt (c : GenCtx) : c.fill < 64 := Nat.mod_lt _ (by omega)

/-- The next position, cyclic in the buffer (R33). -/
theorem fill_storeByte (c : GenCtx) (b : Byte) : (c.storeByte t junk b).fill = (c.fill + 1) % 64 := by
  simp only [GenCtx.fill, storeByte_count, BitVec.toNat_add]
  simp

/-- A message byte keeps the canonical form of `BUF`. -/
theorem wf_storeByte {c : GenCtx} (b : Byte) (h : c.buf.wf 64 = true) : (c.storeByte t junk b).buf.wf 64 = true := by
  rw [storeByte_buf]
  exact wf_write b h (fill_lt c)

theorem wf_storeBytes {c : GenCtx} (bs : List Byte) (h : c.buf.wf 64 = true) :
    (c.storeBytes t junk bs).buf.wf 64 = true := by
  induction bs generalizing c with
  | nil => exact h
  | cons b bs ih => rw [storeBytes_cons]; exact ih (wf_storeByte t junk b h)

end storeBytes

/-- Within a block no full buffer waits (R97). -/
theorem fullPending_of_fill {c : GenCtx} (h : c.fill ≠ 0) : c.fullPending = false := by
  simp [GenCtx.fullPending, h]

/-- Bytes that fit the block at hand, with no full block waiting, leave the compression state (R97). -/
theorem storeBytes_st_of_fits (t : Table) (junk : Nat → Byte) {c : GenCtx} {bs : List Byte}
    (h0 : c.fullPending = false) (h : c.fill + bs.length ≤ 64) : (c.storeBytes t junk bs).st = c.st := by
  induction bs generalizing c with
  | nil => rfl
  | cons b bs ih =>
    have h1 : (c.storeByte t junk b).st = c.st := by rw [storeByte_st, h0]; rfl
    rw [storeBytes_cons]
    cases bs with
    | nil => rw [storeBytes_nil, h1]
    | cons b' bs' =>
      simp only [List.length_cons] at h ih
      have hf : (c.storeByte t junk b).fill = c.fill + 1 := by rw [fill_storeByte]; omega
      rw [ih (fullPending_of_fill (by omega)) (by omega), h1]

/-- Bytes that fit the block at hand lie in `BUF` one after the other (R97, R33). -/
theorem storeBytes_buf_of_fits (t : Table) (junk : Nat → Byte) {c : GenCtx} {bs : List Byte}
    (h : c.fill + bs.length ≤ 64) : (c.storeBytes t junk bs).buf = c.buf.writeBytes c.fill bs := by
  induction bs generalizing c with
  | nil => rfl
  | cons b bs ih =>
    rw [storeBytes_cons]
    cases bs with
    | nil => simp [Memory.writeBytes]
    | cons b' bs' =>
      simp only [List.length_cons] at h ih
      have hf : (c.storeByte t junk b).fill = c.fill + 1 := by rw [fill_storeByte]; omega
      rw [ih (by omega), hf, storeByte_buf]
      rfl

/-- The block is a function of the buffer (R96). -/
theorem block_congr (junk : Nat → Byte) {c d : GenCtx} (h : c.buf = d.buf) : c.block junk = d.block junk := by
  simp [GenCtx.block, h]

section pad
variable (t : Table) (junk : Nat → Byte) (c : GenCtx)

/-- The zeros of the padding are one run of the byte-store step (R102 step 3). -/
theorem padZeros_eq : c.padZeros t junk =
    c.storeBytes t junk (List.replicate (if 8 ≤ 64 - c.fill then 64 - c.fill - 8 else 64 - c.fill + 56) 0) := by
  simp only [GenCtx.padZeros]
  split
  · rfl
  · simp only [storeBytes_eq_foldl, ← List.replicate_append_replicate, List.foldl_append]

/-- The two cases of step 3 of R102, after a marker at position `r`, are the two cases of R105. -/
theorem padZeros_arith {r : Nat} (h : r < 64) :
    (if 8 ≤ 64 - (r + 1) % 64 then 64 - (r + 1) % 64 - 8 else 64 - (r + 1) % 64 + 56) =
      if r ≤ 55 then 55 - r else 119 - r := by
  split_ifs <;> omega

/-- The whole padding is one run of the byte-store step, with the zeros of R105 (R102, R103). -/
theorem pad_eq : c.pad t junk = c.storeBytes t junk
    (markerByte c.tiger2 :: List.replicate (padZeroCount c.count.toNat) 0 ++ wordToBytes c.bitLength) := by
  have hz := padZeros_arith (fill_lt c)
  rw [← fill_storeByte t junk c (markerByte c.tiger2)] at hz
  have hc : padZeroCount c.count.toNat = if c.fill ≤ 55 then 55 - c.fill else 119 - c.fill := rfl
  simp only [GenCtx.pad, padZeros_eq, hz, hc, List.cons_append, storeBytes_eq_foldl, List.foldl_cons,
    List.foldl_append]

@[simp] theorem seal_finalized : (c.seal t junk).finalized = true := rfl
@[simp] theorem seal_count : (c.seal t junk).count = c.count := rfl
@[simp] theorem seal_passes : (c.seal t junk).passes = c.passes := rfl
@[simp] theorem seal_tiger2 : (c.seal t junk).tiger2 = c.tiger2 := rfl
@[simp] theorem seal_buf : (c.seal t junk).buf = c.buf := rfl
@[simp] theorem seal_st : (c.seal t junk).st = compress t c.st (c.block junk) c.passes.toNat :=
  compressBuffer_st t junk c
@[simp] theorem seal_dig : (c.seal t junk).dig = serialise c.dig (c.seal t junk).st := by
  simp only [GenCtx.seal, compressBuffer_dig]

end pad

/-- The state that the padding leaves for the last compression (R102 steps 2 to 4, R103). -/
theorem pad_st (t : Table) (junk : Nat → Byte) (c : GenCtx) : (c.pad t junk).st = c.stateBeforeLastBlock t junk := by
  rw [pad_eq]
  have hfill : c.count.toNat % 64 = c.fill := rfl
  have hlt := fill_lt c
  unfold GenCtx.stateBeforeLastBlock padZeroCount
  rw [hfill]
  by_cases h : c.fill ≤ 55
  · rw [if_pos h, if_pos h, List.cons_append, storeBytes_cons]
    have hf : (c.storeByte t junk (markerByte c.tiger2)).fill = c.fill + 1 := by rw [fill_storeByte]; omega
    rw [storeBytes_st_of_fits t junk (fullPending_of_fill (by omega)) (by simp; omega), storeByte_st]
    simp [GenCtx.fullPending]
  · rw [if_neg h, if_neg h]
    have hz : List.replicate (119 - c.fill) (0 : Byte) =
        List.replicate (63 - c.fill) 0 ++ 0 :: List.replicate 55 0 := by
      rw [← List.replicate_succ, List.replicate_append_replicate]; congr 1; omega
    set bs := markerByte c.tiger2 :: List.replicate (63 - c.fill) (0 : Byte) with hbs
    have hlen : bs.length = 64 - c.fill := by simp [hbs]; omega
    have hsplit : markerByte c.tiger2 :: List.replicate (119 - c.fill) (0 : Byte) ++ wordToBytes c.bitLength =
        bs ++ 0 :: (List.replicate 55 0 ++ wordToBytes c.bitLength) := by
      rw [hz, hbs]; simp only [List.cons_append, List.append_assoc]
    rw [hsplit, storeBytes_eq_foldl, List.foldl_append, ← storeBytes_eq_foldl, ← storeBytes_eq_foldl, storeBytes_cons]
    set d := c.storeBytes t junk bs with hd
    have hst : d.st = c.st := storeBytes_st_of_fits t junk (fullPending_of_fill (by omega)) (by omega)
    have hbuf : d.buf = c.buf.writeBytes c.fill bs := storeBytes_buf_of_fits t junk (by omega)
    have hcount : d.count.toNat = (c.count.toNat + (64 - c.fill)) % 2 ^ 64 := by
      rw [hd, storeBytes_count, hlen]; simp
    have hdf : d.fill = 0 := by
      unfold GenCtx.fill at *; omega
    have hf : (d.storeByte t junk 0).fill = 1 := by rw [fill_storeByte, hdf]
    have hrest : (List.replicate 55 (0 : Byte) ++ wordToBytes c.bitLength).length = 63 := by
      rw [List.length_append, List.length_replicate, wordToBytes_length]
    rw [storeBytes_st_of_fits t junk (fullPending_of_fill (by omega)) (by omega), storeByte_st]
    have hiff : d.fullPending = true ↔ ¬ c.count.toNat + (64 - c.fill) = 2 ^ 64 := by
      have := c.count.isLt
      simp only [GenCtx.fullPending, hdf, decide_true, Bool.and_true, decide_eq_true_eq, ne_eq]
      rw [← BitVec.toNat_inj, hcount]
      unfold GenCtx.fill at *
      simp
      omega
    by_cases hw : c.count.toNat + (64 - c.fill) = 2 ^ 64
    · rw [if_neg (by rw [hiff]; exact not_not.mpr hw), if_pos hw, hst]
    · rw [if_pos (hiff.mpr hw), if_neg hw, hst, hd, storeBytes_passes, ← hd]
      refine congrArg (fun b => compress t c.st b c.passes.toNat) (block_congr junk ?_)
      rw [hbuf]; rfl

/-- The three words of a state in `DIG`, least significant byte first (R116, R34). -/
theorem lookup_serialise (dig : Memory) (st : Words3) {k j : Nat} (hk : k < 3) (hj : j < 8) :
    (serialise dig st).lookup (8 * k + j) = some (byteOf (Words3.get st k) j) := by
  simp only [serialise, lookup_write8]
  interval_cases k
  · rw [if_neg (by omega), if_neg (by omega), if_pos (by omega)]
    simp [Words3.get]
  · rw [if_neg (by omega), if_pos (by omega)]
    simp [Words3.get]
  · rw [if_pos (by omega)]
    simp [Words3.get]

/-- The digest bytes are what `DIG` is read as (R115). -/
@[simp] theorem digest_length (junk : Nat → Byte) (c : GenCtx) : (c.digest junk).length = 24 := by
  simp [GenCtx.digest]

@[simp] theorem restart_count (c : GenCtx) : c.restart.count = 0 := rfl
@[simp] theorem restart_st (c : GenCtx) : c.restart.st = Config.iv := rfl
@[simp] theorem restart_finalized (c : GenCtx) : c.restart.finalized = false := rfl
@[simp] theorem restart_passes (c : GenCtx) : c.restart.passes = c.passes := rfl
@[simp] theorem restart_tiger2 (c : GenCtx) : c.restart.tiger2 = c.tiger2 := rfl
@[simp] theorem restart_buf (c : GenCtx) : c.restart.buf = c.buf := rfl
@[simp] theorem restart_dig (c : GenCtx) : c.restart.dig = c.dig := rfl

/-- The clamp of R98: at least 3, and unchanged from 3 on. -/
theorem clampPasses_toNat (p : BitVec 8) : (clampPasses p).toNat = max 3 p.toNat := by
  unfold clampPasses
  split <;> rename_i h <;> simp only [BitVec.lt_def] at h <;> simp at h ⊢ <;> omega

end Sys2Proof.Laws
end

