-- ==== Sys2Proof/Laws/Ops.lean ====
section
/-! SUPPORT. Everything each shared operation on the state can do, said once: selecting a context, refusing a
command, accepting message bytes. -/

namespace Sys2Proof.Laws
open Sys2Proof.Machine

theorem onCtx_some {s : State} {g : CtxNum} {c : GenCtx} (h : s.ctx? g = some c) (f : GenCtx → State) :
    s.onCtx g f = f c := by
  simp [State.onCtx, h]

theorem onCtx_none {s : State} {g : CtxNum} (h : s.ctx? g = none) (f : GenCtx → State) :
    s.onCtx g f = s.raise .illegalCmd := by
  simp [State.onCtx, h]

/-- Selecting a context either finds none and refuses the command, or goes on with the registers found. -/
theorem onCtx_cases (s : State) (g : CtxNum) (f : GenCtx → State) :
    (s.ctx? g = none ∧ s.onCtx g f = s.raise .illegalCmd) ∨ ∃ c, s.ctx? g = some c ∧ s.onCtx g f = f c := by
  cases h : s.ctx? g with
  | none => exact .inl ⟨rfl, onCtx_none h f⟩
  | some c => exact .inr ⟨c, rfl, onCtx_some h f⟩

/-- No fault code is 0 (R130). -/
theorem code_ne_zero (e : ErrCode) : e.code ≠ 0 := by cases e <;> decide

/-- No fault code is above 4 (R130). -/
theorem code_le (e : ErrCode) : e.code.toNat ≤ 4 := by cases e <;> decide

theorem code_injective {e e' : ErrCode} (h : e.code = e'.code) : e = e' := by
  cases e <;> cases e' <;> first | rfl | exact absurd h (by decide)

theorem statusWord_injective {a b : BitVec 4} (h : statusWord a = statusWord b) : a = b := by
  have := congrArg (BitVec.setWidth 4) h
  simpa [statusWord] using this

/-- A refused command's status word is not that of an accepted one. -/
theorem statusWord_code_ne (e : ErrCode) : statusWord e.code ≠ statusWord 0 :=
  fun h => code_ne_zero e (statusWord_injective h)

/-- Everything `acceptBytes` can do, in the order of R136: no such context, no table, a Finalized context, or the
bytes stored. -/
theorem acceptBytes_cases (s : State) (g : CtxNum) (data : List Byte) :
    (s.ctx? g = none ∧ s.acceptBytes g data = s.raise .illegalCmd)
    ∨ ∃ c, s.ctx? g = some c ∧
      ((s.sboxValid = false ∧ s.acceptBytes g data = s.raise .sboxInvalid)
      ∨ (s.sboxValid = true ∧ c.finalized = true ∧ s.acceptBytes g data = s.raise .finalized)
      ∨ (s.sboxValid = true ∧ c.finalized = false ∧ s.acceptBytes g data =
          (s.setCtx g (c.storeBytes s.table (s.bufJunk g) data)).respond [])) := by
  unfold State.acceptBytes
  rcases onCtx_cases s g _ with ⟨hn, h⟩ | ⟨c, hc, h⟩
  · exact .inl ⟨hn, h⟩
  · refine .inr ⟨c, hc, ?_⟩
    rw [h]
    cases hv : s.sboxValid <;> cases hf : c.finalized <;> simp

/-- Every meaning answers a next state: the block never halts by itself (R157, R166). -/
theorem exec_isNext (i : Instr) (s : State) : ∃ t, exec i s = .next t := by
  cases i <;> exact ⟨_, rfl⟩

end Sys2Proof.Laws
end

