-- ==== Sys2Proof/Laws/PerInstr.lean ====
section
/-! SUPPORT. The laws stated command by command. `SelfDelimiting`: the command word of a well-formed command
announces exactly the payload that its encoding carries (R47, R59). -/

namespace Sys2Proof.Laws.SelfDelimiting

/-- The command word announces the command's payload, and the encoding carries that many words (R47). -/
def Statement (i : Instr) : Prop :=
  WellFormed i = true →
    payloadBytes (encodeHead i) = i.payload.length ∧ (packBytes i.payload).length = payloadWords (encodeHead i)

/-- The words follow from the bytes, by the rounding of R47. -/
theorem of_bytes {i : Instr} (h : payloadBytes (encodeHead i) = i.payload.length) :
    payloadBytes (encodeHead i) = i.payload.length ∧ (packBytes i.payload).length = payloadWords (encodeHead i) :=
  ⟨h, by rw [payloadWords, h, Laws.packBytes_length]⟩

theorem sboxInitDefault : Statement .sboxInitDefault := fun _ => of_bytes rfl

theorem sboxInit (passes : BitVec 8) (seed : List Byte) : Statement (.sboxInit passes seed) := fun h => by
  refine of_bytes ?_
  have hlen : seed.length < 2 ^ 16 := by simpa [WellFormed] using h
  have hfield : (BitVec.ofNat 16 seed.length ++ passes).extractLsb' 8 16 = BitVec.ofNat 16 seed.length :=
    extract_append_high (BitVec.ofNat 16 seed.length) passes
  simp only [payloadBytes, encodeHead, opOf_commandWord, Instr.payload]
  rw [if_pos trivial, extract_commandWord _ _ _ (by omega), hfield, BitVec.toNat_ofNat, Nat.mod_eq_of_lt hlen]

theorem genNew (g : CtxNum) (passes : BitVec 8) (tiger2 : Bool) : Statement (.genNew g passes tiger2) := fun _ =>
  of_bytes (by simp [payloadBytes, encodeHead, Instr.payload])

theorem genReset (g : CtxNum) : Statement (.genReset g) := fun _ =>
  of_bytes (by simp [payloadBytes, encodeHead, Instr.payload])

theorem updateByte (g : CtxNum) (byte : Byte) : Statement (.updateByte g byte) := fun _ =>
  of_bytes (by simp [payloadBytes, encodeHead, Instr.payload])

theorem update (g : CtxNum) (data : List Byte) : Statement (.update g data) := fun h => by
  refine of_bytes ?_
  have hlen : data.length < 2 ^ 24 := by simpa [WellFormed] using h
  simp only [payloadBytes, encodeHead, opOf_commandWord, Instr.payload]
  rw [if_neg (by decide), if_pos trivial, extract_commandWord _ _ _ (by omega)]
  simp
  omega

theorem finalize (g : CtxNum) : Statement (.finalize g) := fun _ =>
  of_bytes (by simp [payloadBytes, encodeHead, Instr.payload])

theorem digestRead (g : CtxNum) (idx : BitVec 5) : Statement (.digestRead g idx) := fun _ =>
  of_bytes (by simp [payloadBytes, encodeHead, Instr.payload])

theorem status (g : CtxNum) : Statement (.status g) := fun _ =>
  of_bytes (by simp [payloadBytes, encodeHead, Instr.payload])

end Sys2Proof.Laws.SelfDelimiting
end

