-- ==== Sys2Proof/Laws/Table.lean ====
section
/-! SUPPORT. The laws of the table: a byte after a write to a sub-table, what the address space `TBL` holds after a
table has been written to it, and that a walk along a canonical form reads every byte once. -/

namespace Sys2Proof.Laws
open Sys2Proof.Machine

/-- A bit of a wide vector in which the byte at bit `8*a` has been replaced. -/
theorem getLsbD_replaceByte {n : Nat} (u : BitVec n) (a i : Nat) (b : Byte) (hi : i < n) :
    ((u &&& ~~~((0xFF#n) <<< (8 * a))) ||| (b.setWidth n <<< (8 * a))).getLsbD i =
      if 8 * a ≤ i ∧ i < 8 * a + 8 then b.getLsbD (i - 8 * a) else u.getLsbD i := by
  have hff : ∀ j, (0xFF#n).getLsbD j = (decide (j < n) && decide (j < 8)) := by
    intro j
    have h255 : (255 : Nat) = 2 ^ 8 - 1 := rfl
    rw [BitVec.getLsbD_ofNat, h255, Nat.testBit_two_pow_sub_one]
  simp only [BitVec.getLsbD_or, BitVec.getLsbD_and, BitVec.getLsbD_not, BitVec.getLsbD_shiftLeft,
    BitVec.getLsbD_setWidth, hff, hi, decide_true, Bool.true_and]
  by_cases h1 : i < 8 * a
  · rw [if_neg (by omega)]
    simp [h1]
  · by_cases h2 : i < 8 * a + 8
    · rw [if_pos (by omega)]
      have : i - 8 * a < 8 := by omega
      simp [h1, this, show i - 8 * a < n by omega]
    · rw [if_neg (by omega)]
      have : ¬ i - 8 * a < 8 := by omega
      simp [h1, this, BitVec.getLsbD_of_ge b (i - 8 * a) (by omega)]

/-- What every byte of a sub-table is after one has been replaced. -/
theorem byte_setByte (u : SubTable) {a x : Nat} (b : Byte) (hx : x < 2048) :
    (u.setByte a b).byte x = if x = a then b else u.byte x := by
  apply BitVec.eq_of_getLsbD_eq
  intro i hi
  simp only [SubTable.byte, SubTable.setByte, BitVec.getLsbD_extractLsb', hi, decide_true, Bool.true_and]
  rw [getLsbD_replaceByte _ _ _ _ (by omega)]
  by_cases h : x = a
  · subst h
    rw [if_pos (by omega), if_pos rfl]
    congr 1
    omega
  · rw [if_neg (by omega), if_neg h]
    simp [hi]

/-- Exchanging two bytes: position `p` holds what `q` held, `q` what `p` held, and the rest is unchanged (R70). -/
theorem byte_swapBytes (u : SubTable) {p q x : Nat} (hx : x < 2048) :
    (swapBytes u p q).byte x = if x = q then u.byte p else if x = p then u.byte q else u.byte x := by
  simp only [swapBytes, byte_setByte _ _ hx]

/-- Byte `col` of word `v` of a sub-table is its byte at address `8*v + col` (R32). -/
theorem byteOf_word (u : SubTable) (v : Nat) {col : Nat} (hc : col < 8) :
    byteOf (u.word v) col = u.byte (8 * v + col) := by
  apply BitVec.eq_of_getLsbD_eq
  intro i hi
  simp only [byteOf, SubTable.word, SubTable.byte, BitVec.getLsbD_extractLsb', hi, decide_true, Bool.true_and]
  rw [show decide (8 * col + i < 64) = true by simp; omega, Bool.true_and]
  congr 1
  omega

@[simp] theorem sub_zero (t : Table) : t.sub 0 = t.t0 := rfl
@[simp] theorem sub_one (t : Table) : t.sub 1 = t.t1 := rfl
@[simp] theorem sub_two (t : Table) : t.sub 2 = t.t2 := rfl
@[simp] theorem sub_three (t : Table) : t.sub 3 = t.t3 := rfl

/-- Replacing one sub-table leaves the three others alone. -/
theorem sub_setSub (t : Table) {i j : Nat} (u : SubTable) (hi : i < 4) (hj : j < 4) :
    (t.setSub i u).sub j = if j = i then u else t.sub j := by
  interval_cases i <;> interval_cases j <;> rfl

/-- A list of cells at the addresses from `lo` on, one each, is in canonical form. -/
theorem wfFrom_map_range' {size lo n : Nat} (f : Nat → Byte) (h : lo + n ≤ size) :
    Memory.wfFrom size lo ((List.range' lo n).map fun a => (a, f a)) = true := by
  induction n generalizing lo with
  | zero => rfl
  | succ n ih =>
    simp only [List.range'_succ, List.map_cons, Memory.wfFrom, Bool.and_eq_true, decide_eq_true_eq]
    exact ⟨⟨Nat.le_refl lo, by omega⟩, ih (by omega)⟩

theorem lookup_map_range' {lo n : Nat} (f : Nat → Byte) (a : Nat) :
    Memory.lookup ((List.range' lo n).map fun a => (a, f a)) a = if lo ≤ a ∧ a < lo + n then some (f a) else none := by
  induction n generalizing lo with
  | zero => rw [if_neg (by omega)]; rfl
  | succ n ih =>
    simp only [List.range'_succ, List.map_cons, Memory.lookup, ih]
    by_cases h : lo = a
    · subst h; rw [if_pos rfl, if_pos (by omega)]
    · rw [if_neg h]
      by_cases h2 : lo ≤ a ∧ a < lo + (n + 1)
      · rw [if_pos h2, if_pos (by omega)]
      · rw [if_neg h2, if_neg (by omega)]

/-- What `TBL` holds after a table has been written to it: every byte of the table. -/
theorem lookup_toMemory (t : Table) (a : Nat) : t.toMemory.lookup a = if a < 8192 then some (t.byte a) else none := by
  simp [Table.toMemory, lookup_map_range']

/-- A table written to `TBL` is in canonical form. -/
@[simp] theorem wf_toMemory (t : Table) : t.toMemory.wf 8192 = true := by
  simp only [Table.toMemory, Memory.wf]
  exact wfFrom_map_range' _ (by omega)

/-- Dropping the cells below `lo` leaves a canonical form from `lo` on, with the same contents there. -/
theorem dropWhile_spec {size lo lo' : Nat} {m : Memory} (h : Memory.wfFrom size lo m = true) :
    Memory.wfFrom size lo' (m.dropWhile fun c => decide (c.1 < lo')) = true ∧
      ∀ a, lo' ≤ a → Memory.lookup (m.dropWhile fun c => decide (c.1 < lo')) a = m.lookup a := by
  induction m generalizing lo with
  | nil => exact ⟨rfl, fun _ _ => rfl⟩
  | cons cell rest ih =>
    obtain ⟨k, b⟩ := cell
    simp only [Memory.wfFrom, Bool.and_eq_true, decide_eq_true_eq] at h
    by_cases hk : k < lo'
    · simp only [List.dropWhile_cons, hk, decide_true, if_true]
      refine ⟨(ih h.2).1, fun a ha => ?_⟩
      rw [(ih h.2).2 a ha]
      simp only [Memory.lookup]
      rw [if_neg (by omega)]
    · simp only [List.dropWhile_cons, hk, decide_false, Bool.false_eq_true, if_false]
      refine ⟨?_, fun _ _ => trivial⟩
      simp only [Memory.wfFrom, Bool.and_eq_true, decide_eq_true_eq]
      exact ⟨⟨by omega, h.1.2⟩, h.2⟩

/-- The walk along a canonical form reads each of its addresses. -/
theorem dump_eq_map_read {size a n : Nat} {m : Memory} (junk : Nat → Byte) (h : Memory.wfFrom size a m = true) :
    Memory.dump junk m a n = (List.range' a n).map (m.read junk) := by
  induction n generalizing a m with
  | zero => cases m <;> rfl
  | succ n ih =>
    cases m with
    | nil =>
      simp only [Memory.dump, List.range'_succ, List.map_cons, ih (m := []) (a := a + 1) rfl]
      rfl
    | cons cell rest =>
      obtain ⟨k, b⟩ := cell
      simp only [Memory.wfFrom, Bool.and_eq_true, decide_eq_true_eq] at h
      simp only [Memory.dump, List.range'_succ, List.map_cons]
      by_cases hk : k = a
      · subst hk
        rw [if_pos rfl, ih h.2]
        refine congrArg₂ _ (by simp [Memory.read, Memory.lookup]) (List.map_congr_left fun x hx => ?_)
        have hx := (List.mem_range'_1.mp hx).1
        simp only [Memory.read, Memory.lookup]
        rw [if_neg (by omega)]
      · rw [if_neg hk, ih (m := (k, b) :: rest) (by
          simp only [Memory.wfFrom, Bool.and_eq_true, decide_eq_true_eq]
          exact ⟨⟨by omega, h.1.2⟩, h.2⟩)]
        refine congrArg₂ _ ?_ rfl
        simp only [Memory.read, Memory.lookup]
        rw [if_neg hk, lookup_of_wfFrom h.2 (by omega)]
        rfl

end Sys2Proof.Laws
end

