-- ==== Sys2Proof/Laws/SBox.lean ====
section
/-! SUPPORT. The laws of SBox generation: the loop as a plain fold over the inner iterations, what one iteration
changes, and what the fill step and the working block hold. -/

namespace Sys2Proof.Laws
open Sys2Proof.Machine

@[simp] theorem run_zero (w : Words8) (n : Nat) (l : GenLoop) : GenLoop.run w 0 n l = l := rfl

@[simp] theorem run_succ (w : Words8) (count n : Nat) (l : GenLoop) :
    GenLoop.run w (count + 1) n l = GenLoop.run w count (n + 1) (l.inner w n) := by
  simp [GenLoop.run]

/-- The loop is a fold over the numbers of the inner iterations (R69). -/
theorem run_eq_foldl (w : Words8) (count n : Nat) (l : GenLoop) :
    GenLoop.run w count n l = (List.range' n count).foldl (fun l n => l.inner w n) l := by
  induction count generalizing n l with
  | zero => rfl
  | succ count ih => simp [List.range'_succ, ih]

/-- What holds at the start and is kept by every inner iteration holds at the end. -/
theorem run_induction {P : GenLoop → Prop} {w : Words8} (hstep : ∀ l n, P l → P (l.inner w n)) :
    ∀ count n l, P l → P (GenLoop.run w count n l) := by
  intro count
  induction count with
  | zero => exact fun _ _ h => h
  | succ count ih => exact fun n l h => by rw [run_succ]; exact ih _ _ (hstep l n h)

@[simp] theorem advance_tab (w : Words8) (l : GenLoop) : (l.advance w).tab = l.tab := by
  simp only [GenLoop.advance]; split <;> rfl

/-- The rolling counter after an update: 0, 1 or 2 (R69). -/
theorem advance_abc_lt (w : Words8) (l : GenLoop) (h : l.abc < 3) : (l.advance w).abc < 3 := by
  simp only [GenLoop.advance]
  split
  · show 0 < 3
    omega
  · show l.abc + 1 < 3
    omega

/-- An inner iteration swaps lanes in one sub-table and leaves the others alone (R69, R70). -/
theorem inner_tab_sub (w : Words8) (l : GenLoop) (n : Nat) {i : Nat} (hi : i < 4) :
    (l.inner w n).tab.sub i =
      if i = n % 4 then swapLanes (l.tab.sub i) (n / 4 % 256) (Words3.get (l.advance w).gs (l.advance w).abc)
      else l.tab.sub i := by
  simp only [GenLoop.inner, GenLoop.swap, advance_tab]
  rw [sub_setSub _ _ (Nat.mod_lt _ (by omega)) hi]
  split
  · rename_i h; rw [h]
  · rfl

/-- The first `n` lanes of `SwapLanes` (R70). -/
theorem byte_swapLanes_prefix (u : SubTable) (sel : Word) {i v col : Nat} (hi : i < 256) (hv : v < 256) (hc : col < 8)
    {n : Nat} (hn : n ≤ 8) :
    ((List.range n).foldl (fun u col => swapBytes u (8 * i + col) (8 * (byteOf sel col).toNat + col)) u).byte
        (8 * v + col) =
      if col < n then
        if v = i then u.byte (8 * (byteOf sel col).toNat + col)
        else if v = (byteOf sel col).toNat then u.byte (8 * i + col)
        else u.byte (8 * v + col)
      else u.byte (8 * v + col) := by
  induction n generalizing v with
  | zero => simp
  | succ n ih =>
    have hq : (byteOf sel n).toNat < 256 := (byteOf sel n).isLt
    rw [List.range_succ, List.foldl_append, List.foldl_cons, List.foldl_nil, byte_swapBytes _ (by omega)]
    by_cases hcn : col = n
    · subst hcn
      rw [ih hi (by omega), ih hq (by omega), ih hv (by omega)]
      simp only [Nat.lt_irrefl, if_false, Nat.lt_succ_self, if_true, Nat.add_right_cancel_iff]
      simp only [show ∀ a b : Nat, (8 * a = 8 * b) = (a = b) from fun a b => by simp]
      split_ifs with h1 h2 <;> simp_all
    · rw [if_neg (by omega), if_neg (by omega), ih hv (by omega)]
      have : (col < n + 1) = (col < n) := by simp; omega
      simp only [this]

/-- `SwapLanes`, lane by lane: the entry at the position and the selected entry exchange the lane (R70). -/
theorem byte_swapLanes (u : SubTable) (sel : Word) {i v col : Nat} (hi : i < 256) (hv : v < 256) (hc : col < 8) :
    (swapLanes u i sel).byte (8 * v + col) =
      if v = i then u.byte (8 * (byteOf sel col).toNat + col)
      else if v = (byteOf sel col).toNat then u.byte (8 * i + col)
      else u.byte (8 * v + col) := by
  rw [swapLanes, byte_swapLanes_prefix u sel hi hv hc (by omega), if_pos hc]

/-- The last inner iteration taken off the loop (R69). -/
theorem run_succ_end (w : Words8) (count n : Nat) (l : GenLoop) :
    GenLoop.run w (count + 1) n l = (GenLoop.run w count n l).inner w (n + count) := by
  rw [run_eq_foldl, run_eq_foldl, List.range'_concat]
  simp

/-- Lane `col` of entry `v` of sub-table `s`, by its address in `TBL` (R32). -/
theorem table_byte (t : Table) {s v col : Nat} (hv : v < 256) (hc : col < 8) :
    t.byte (8 * (256 * s + v) + col) = (t.sub s).byte (8 * v + col) := by
  unfold Table.byte
  rw [show (8 * (256 * s + v) + col) / 2048 = s by omega, show (8 * (256 * s + v) + col) % 2048 = 8 * v + col by omega]

/-- Byte `p` of the working block is the seed's byte, 0 past its end (R67). -/
theorem seedBlock_eq_of_bytes {seed seed' : List Byte} (h : ∀ p, p < 64 → seedByte seed p = seedByte seed' p) :
    seedBlock seed = seedBlock seed' := by
  have hw : ∀ k, k < 8 → seedWord seed k = seedWord seed' k := by
    intro k hk
    simp only [seedWord, wordFromBytes]
    rw [h (8 * k + 7) (by omega), h (8 * k + 6) (by omega), h (8 * k + 5) (by omega), h (8 * k + 4) (by omega),
      h (8 * k + 3) (by omega), h (8 * k + 2) (by omega), h (8 * k + 1) (by omega), h (8 * k + 0) (by omega)]
  simp only [seedBlock]
  rw [hw 0 (by omega), hw 1 (by omega), hw 2 (by omega), hw 3 (by omega), hw 4 (by omega), hw 5 (by omega),
    hw 6 (by omega), hw 7 (by omega)]

/-- The default seed fills the working block exactly (R72). -/
theorem defaultSeed_length : defaultSeed.length = 64 := rfl

end Sys2Proof.Laws
end

