-- ==== Sys2Proof/Laws/Step.lean ====
section
/-! SUPPORT. What a step finds in the command stream and everything it can do, said once. -/

namespace Sys2Proof.Laws
open Sys2Proof.Machine

/-- Collecting payload words that are all there (R45). -/
theorem takePayload_complete (ws : List Word32) (rest : List HostEvent) (taken : List Word32) :
    takePayload ws.length (ws.map HostEvent.word ++ rest) taken = .complete (taken.reverse ++ ws) rest := by
  induction ws generalizing taken with
  | nil => simp [takePayload]
  | cons w ws ih => simp [takePayload, ih]

/-- Collecting payload words of which the last are missing (R51). -/
theorem takePayload_missing (ws : List Word32) {n : Nat} (h : ws.length < n) (taken : List Word32) :
    takePayload n (ws.map HostEvent.word) taken = .missing := by
  induction ws generalizing n taken with
  | nil => obtain ⟨m, rfl⟩ : ∃ m, n = m + 1 := ⟨n - 1, by simp at h; omega⟩; rfl
  | cons w ws ih =>
    obtain ⟨m, rfl⟩ : ∃ m, n = m + 1 := ⟨n - 1, by simp at h; omega⟩
    simp only [List.length_cons] at h
    simp [takePayload, ih (show ws.length < m by omega)]

/-- Collecting payload words of which the last are cut off by a reset (R150). -/
theorem takePayload_cutOff (ws : List Word32) {n : Nat} (h : ws.length < n) (rest : List HostEvent)
    (taken : List Word32) : takePayload n (ws.map HostEvent.word ++ .reset :: rest) taken = .cutOff rest := by
  induction ws generalizing n taken with
  | nil => obtain ⟨m, rfl⟩ : ∃ m, n = m + 1 := ⟨n - 1, by simp at h; omega⟩; rfl
  | cons w ws ih =>
    obtain ⟨m, rfl⟩ : ∃ m, n = m + 1 := ⟨n - 1, by simp at h; omega⟩
    simp only [List.length_cons] at h
    simp [takePayload, ih (show ws.length < m by omega)]

/-- Everything a step can do: wait, take the reset event, refuse an illegal word, or execute a command. -/
theorem step_cases (s : State) :
    (fetch s.inp = .waiting ∧ step s = .next s)
    ∨ (∃ rest, fetch s.inp = .reset rest ∧ step s = .next (s.hostReset rest))
    ∨ (∃ head payload rest why, fetch s.inp = .command head payload rest ∧ decode head payload = .illegal why ∧
        step s = .next (State.raise { s with inp := rest } .illegalCmd))
    ∨ (∃ head payload rest i, fetch s.inp = .command head payload rest ∧ decode head payload = .command i ∧
        step s = exec i { s with inp := rest }) := by
  unfold step
  cases hf : fetch s.inp with
  | waiting => exact .inl ⟨rfl, rfl⟩
  | reset rest => exact .inr (.inl ⟨rest, rfl, rfl⟩)
  | command head payload rest =>
    cases hd : decode head payload with
    | illegal why => exact .inr (.inr (.inl ⟨head, payload, rest, why, rfl, hd, by simp [hd]⟩))
    | command i => exact .inr (.inr (.inr ⟨head, payload, rest, i, rfl, hd, by simp [hd]⟩))

/-- The block never stops: every step answers a next state (R157). -/
theorem step_isNext (s : State) : ∃ t, step s = .next t := by
  rcases step_cases s with ⟨_, h⟩ | ⟨_, _, h⟩ | ⟨_, _, _, _, _, _, h⟩ | ⟨_, _, _, i, _, _, h⟩
  · exact ⟨_, h⟩
  · exact ⟨_, h⟩
  · exact ⟨_, h⟩
  · rw [h]; exact exec_isNext i _

end Sys2Proof.Laws
end

