-- ==== Sys2Proof/Tests/Slice0.lean ====
section
/-! SUPPORT. Tests on single steps and single functions, each expected value taken from the spec (the rule or the
vector `Vn` of spec/95_test_vectors.md is named), and one witness for every statement that has hypotheses. -/

namespace Sys2Proof.Tests
open Sys2Proof Sys2Proof.Machine Sys2Proof.Laws

/-! ## Well-formedness -/

theorem wellFormed_sboxInit_of_length {n : Nat} {seed : List Byte} (h : seed.length = n) :
    WellFormed (.sboxInit 1 seed) = decide (n < 2 ^ 16) := by
  subst h
  rfl

theorem wellFormed_update_of_length {n : Nat} {data : List Byte} (h : data.length = n) :
    WellFormed (.update 0 data) = decide (n < 2 ^ 24) := by
  subst h
  rfl

/-- R55: 65535 seed bytes fit `seedSize`, one more does not. -/
theorem test_illFormed_sboxInit : WellFormed (.sboxInit 1 (List.replicate 65536 0)) = false :=
  wellFormed_sboxInit_of_length List.length_replicate

theorem test_wellFormed_sboxInit_longest : WellFormed (.sboxInit 1 (List.replicate 65535 0)) = true :=
  wellFormed_sboxInit_of_length List.length_replicate

/-- R59: 16777215 bytes fit `n`, one more does not. -/
theorem test_illFormed_update : WellFormed (.update 0 (List.replicate 16777216 0)) = false :=
  wellFormed_update_of_length List.length_replicate

theorem test_wellFormed_update_longest : WellFormed (.update 0 (List.replicate 16777215 0)) = true :=
  wellFormed_update_of_length List.length_replicate

theorem test_illFormed_digestRead : WellFormed (.digestRead 0 24) = false := by decide

theorem test_ctxExists_refuses_one_past : Instr.ctxExists 1 (.status 1) = false := by decide

/-! ## Decoding: one word per command, its fields written out from R54 to R62 (V7) -/

/-- R54: op 0001, everything else 0. -/
theorem test_decode_sboxInitDefault :
    decode 0b0001_0000_000000000000000000000000#32 [] = .command .sboxInitDefault := by decide

/-- R55: op 0010, ctx 0, seedSize 5, passes 5; then "Tigerr" packed, the last word's spare bytes not 0 (R48). -/
theorem test_decode_sboxInit :
    decode 0b0010_0000_0000000000000101_00000101#32
      [0b01100101_01100111_01101001_01010100#32, 0xFFFFFF72#32] =
      .command (.sboxInit 5 [0x54, 0x69, 0x67, 0x65, 0x72]) := by decide

/-- R56: op 0011, ctx 15, fifteen zeros, tiger2 1, passes 255 (V7 `3F0001FF`). -/
theorem test_decode_genNew :
    decode 0b0011_1111_000000000000000_1_11111111#32 [] = .command (.genNew 15 255 true) := by decide

/-- R57: op 0100, ctx 1. -/
theorem test_decode_genReset :
    decode 0b0100_0001_000000000000000000000000#32 [] = .command (.genReset 1) := by decide

/-- R58: op 0101, ctx 0, sixteen zeros, byte 0x61. -/
theorem test_decode_updateByte :
    decode 0b0101_0000_0000000000000000_01100001#32 [] = .command (.updateByte 0 0x61) := by decide

/-- R59: op 0110, ctx 0, n 5; "abcde" packed (V7 `60000005 64636261 00000065`). -/
theorem test_decode_update :
    decode 0b0110_0000_000000000000000000000101#32
      [0b01100100_01100011_01100010_01100001#32, 0b00000000_00000000_00000000_01100101#32] =
      .command (.update 0 [0x61, 0x62, 0x63, 0x64, 0x65]) := by decide

/-- R61: op 0111, ctx 1. -/
theorem test_decode_finalize :
    decode 0b0111_0001_000000000000000000000000#32 [] = .command (.finalize 1) := by decide

/-- R60: op 1000, ctx 0, nineteen zeros, idx 23. -/
theorem test_decode_digestRead :
    decode 0b1000_0000_0000000000000000000_10111#32 [] = .command (.digestRead 0 23) := by decide

/-- R62: op 1001, ctx 1. -/
theorem test_decode_status :
    decode 0b1001_0001_000000000000000000000000#32 [] = .command (.status 1) := by decide

/-- The illegal words of V7, each with the clause of R63 that it falls under. -/
theorem test_decode_illegal_words :
    decode 0x00000000#32 [] = .illegal .reservedOp ∧ decode 0xA0000000#32 [] = .illegal .reservedOp ∧
    decode 0xF0000000#32 [] = .illegal .reservedOp ∧ decode 0x11000000#32 [] = .illegal .ctxNotZero ∧
    decode 0x10000001#32 [] = .illegal .reservedBits ∧
    decode 0x21000501#32 [0x65676954#32, 0x72#32] = .illegal .ctxNotZero ∧
    decode 0x30000203#32 [] = .illegal .reservedBits ∧ decode 0x50000161#32 [] = .illegal .reservedBits ∧
    decode 0x80000018#32 [] = .illegal .digestIndex ∧ decode 0x80000020#32 [] = .illegal .reservedBits ∧
    decode 0x90000001#32 [] = .illegal .reservedBits := by decide

/-- The words of V7 that carry operands, from the encoder. -/
theorem test_encode_words :
    encode (.sboxInit 5 [0x54, 0x69, 0x67, 0x65, 0x72]) = [0x20000505, 0x65676954, 0x00000072] ∧
    encode (.genNew 15 255 true) = [0x3F0001FF] ∧ encode (.updateByte 0 0x61) = [0x50000061] ∧
    encode (.update 0 [0x61, 0x62, 0x63, 0x64, 0x65]) = [0x60000005, 0x64636261, 0x00000065] ∧
    encode (.digestRead 0 23) = [0x80000017] ∧ encode (.finalize 1) = [0x71000000] ∧
    encode (.status 1) = [0x91000000] ∧ encode (.genReset 1) = [0x41000000] ∧
    encode .sboxInitDefault = [0x10000000] := by decide

/-- R47: an illegal `UPDATE` or `SBOX_INIT` word announces its payload all the same. -/
theorem test_payloadWords_of_illegal : payloadWords 0x21000501#32 = 2 ∧ payloadWords 0x61000003#32 = 1 := by decide

/-- R64, V7: texts and their words. -/
theorem test_text_form :
    assemble "SBOX_INIT 5, \"Tiger\"".toList = some [0x20000505, 0x65676954, 0x00000072] ∧
    assemble "GEN_NEW 0".toList = some [0x30000003] ∧
    assemble "UPDATE 0, hex 61 62 63 64 65".toList = some [0x60000005, 0x64636261, 0x00000065] ∧
    assemble "UPDATE 1, 'a' * 3".toList = some [0x61000003, 0x00616161] ∧
    assemble "DIGEST_READ 0, 24".toList = none := by decide

/-- R64: the pseudo-command `HASH`. -/
theorem test_text_form_hash :
    readCommand "HASH 1, \"abc\"".toList = some [.genReset 1, .update 1 [0x61, 0x62, 0x63], .finalize 1] := by decide

/-! ## The compression core -/

/-- A table whose words at the eight places of V2.1 are those of V2.1. -/
def tableV21 : Table :=
  ⟨(0x0D5DF1A94CCF402F#16384 <<< (64 * 134)) ||| (0xBB434A2DEE7269E7#16384 <<< (64 * 240)),
   (0xAB9BF1879DA503BA#16384 <<< (64 * (434 - 256))) ||| (0x9E0523C9971D311D#16384 <<< (64 * (421 - 256))),
   (0x1ECBBA0714E2A97B#16384 <<< (64 * (692 - 512))) ||| (0x129A50B3AC60BFA6#16384 <<< (64 * (707 - 512))),
   (0x3691E03F52A0F9D1#16384 <<< (64 * (918 - 768))) ||| (0x2388B1990DF2A87B#16384 <<< (64 * (993 - 768)))⟩

/-- V2.1, the example of R82. -/
theorem test_round : round tableV21 0x0123456789ABCDEF 0xFEDCBA9876543210 0xF096A5B4C3B2E187 1 5 =
    ⟨0x7286EB50F283BAB0, 0x5FF651048C978613, 0xF096A5B4C3B2E186⟩ := by decide +kernel

/-- V2.3, the all-zero input: the first statement wraps below zero, both shifts fill with zeros. -/
theorem test_schedule_zero : schedule ⟨0, 0, 0, 0, 0, 0, 0, 0⟩ =
    ⟨0xD1D1D1F3F3EF0F10, 0xC77777B0B09B4B4B, 0x9D2D2DEAEAC11110, 0x25B5B6737346B6B5,
     0x62D2D1D1B1A30906, 0xEA5A59593926ACA3, 0x61D1D0F2D2BB6158, 0x1684E2043E8407FE⟩ := by decide +kernel

/-- V2.3, the input `X[k] = k`. -/
theorem test_schedule_count : schedule ⟨0, 1, 2, 3, 4, 5, 6, 7⟩ =
    ⟨0xD1D1D1F3F40F0F24, 0xC77776B0AC934B3B, 0x9D2D2CEAF6C9115A, 0x25B5B5737F6EB6FC,
     0x62D2D2D1ADDD08B8, 0xEA5A5A592578AD13, 0x61D1D1F2BF2D61D4, 0x1684E304632E088B⟩ := by decide +kernel

/-- V6.1: the working block of the default seed. -/
theorem test_seedBlock_default : seedBlock defaultSeed =
    ⟨0x202D207265676954, 0x4E20747361462041, 0x2068736148207765, 0x6E6F6974636E7546,
     0x736F52207962202C, 0x737265646E412073, 0x4520646E61206E6F, 0x6D6168694220696C⟩ := by decide +kernel

/-- V6.2: landmarks of the fill pattern. -/
theorem test_fillTable_landmarks : fillTable.word 0 = 0 ∧ fillTable.word 1 = 0x0101010101010101 ∧
    fillTable.word 255 = 0xFFFFFFFFFFFFFFFF ∧ fillTable.word 256 = 0 ∧
    fillTable.word 513 = 0x0101010101010101 ∧ fillTable.word 1023 = 0xFFFFFFFFFFFFFFFF := by decide +kernel

/-- V6.3: after the first inner iteration of the default seed, `GS`, the counter and three entries. -/
theorem test_first_inner_iteration :
    let l := GenLoop.start.inner (seedBlock defaultSeed) 0
    l.gs = ⟨0xC6D4016823FB1B8C, 0xD2445B2DAF8BDF43, 0x05CF506A99F250C2⟩ ∧ l.abc = 0 ∧
      l.tab.word 0 = 0xC6D4016823FB1B8C ∧ l.tab.word 140 = 0x8C8C8C8C8C8C8C00 ∧
      l.tab.word 27 = 0x1B1B1B1B1B1B001B ∧ l.tab.word 256 = 0 := by decide +kernel

/-- V6.5, fifth row: the classic digest of the empty message under the fill pattern, as state words. -/
theorem test_empty_digest_fill_pattern :
    ((GenCtx.reset.pad fillTable fun _ => 0).seal fillTable fun _ => 0).st =
      ⟨0xF23C0207C1CF61DC, 0x1A7DE0D481428E4D, 0x6A803CF6F6B16878⟩ := by decide +kernel

/-! ## Digests (V5) -/

/-- V5.1: the state of the empty message under the default table. -/
def stateV51 : Words3 := ⟨0x24F0130C63AC9332, 0x16166E76B1BB925F, 0xF373DE2D49584E7A⟩

theorem test_digest_text : digestText (stateBytes stateV51) =
    "3293AC630C13F0245F92BBB1766E16167A4E58492DDE73F3".toList := by decide +kernel

theorem test_digest_words : packBytes (stateBytes stateV51) =
    [0x63AC9332, 0x24F0130C, 0xB1BB925F, 0x16166E76, 0x49584E7A, 0xF373DE2D] := by decide +kernel

/-- V5.2: digest("abc") is less than digest(""), though its state word 0 is the greater number. -/
theorem test_digest_order :
    digestLt (stateBytes ⟨0xF258C1E88414AB2A, 0x527AB541FFC5B8BF, 0x935F7B951C132951⟩) (stateBytes stateV51) = true := by
  decide +kernel

/-- V5.3. -/
theorem test_scalar_hash : (scalarHash .w64 (stateBytes stateV51)).toNat = 0xC195A3579B4F4F17 ∧
    (scalarHash .w32 (stateBytes stateV51)).toNat = 0x5ADAEC40 := by decide +kernel

/-! ## Commands, one step each -/

/-- The state after a meaning or a step, `s` itself if it did not answer one. -/
def after (s : State) : Answer → State
  | .next t => t
  | .fault _ => s
  | .refused _ => s

/-- A block with two contexts and the fill pattern as its table. -/
def tabled : State := { State.resetWith 2 with tbl := fillTable.toMemory, sboxValid := true }

/-- A context that has sealed a message: one block of zeros in `BUF`, the serialisation of `S` in `DIG`. -/
def sealedCtx : GenCtx where
  count := 64
  passes := 3
  tiger2 := false
  finalized := true
  st := stateV51
  buf := (List.range 64).map fun a => (a, 0)
  dig := serialise [] stateV51

/-- A block whose context 0 is Finalized and whose context 1 is fresh. -/
def sealed : State := { tabled with ctxs := [sealedCtx, GenCtx.reset] }

/-- R74, V6.2: `SBOX_INIT 0` leaves the fill pattern: lane 3 of entry 255 is 0xFF. -/
theorem test_sboxInit_zero_passes :
    ((after State.reset (exec (.sboxInit 0 []) State.reset)).tbl.lookup (8 * 255 + 3)) = some 0xFF := by
  show (sboxGenerate [] 0).toMemory.lookup _ = _
  rw [lookup_toMemory]
  decide +kernel

/-- R71: `SBOX_INIT` sets `SBOX_VALID`, answers `OK` and leaves `FAULT`. -/
theorem test_sboxInit_flags :
    let t := after State.reset (exec (.sboxInit 0 []) { State.reset with fault := 4 })
    t.sboxValid = true ∧ t.out = [0] ∧ t.fault = 4 := ⟨rfl, rfl, rfl⟩

/-- R72: so does `SBOX_INIT_DEFAULT`. -/
theorem test_sboxInitDefault_flags :
    let t := after State.reset (exec .sboxInitDefault State.reset)
    t.sboxValid = true ∧ t.out = [0] ∧ t.fault = 0 := ⟨rfl, rfl, rfl⟩

/-- V8.1 lines 5 and 6: legal without a table; the image then shows 4 passes, Tiger2, `FAULT` 2. -/
theorem test_genNew_then_status :
    let s := after State.reset (exec (.genNew 0 4 true) { State.reset with fault := 2 })
    (after s (exec (.status 0) s)).out = [0, 0, 0x00000442] := by decide

/-- R98: `passes` 2 is stored as 3. -/
theorem test_genNew_clamps :
    (after State.reset (exec (.genNew 0 2 false) State.reset)).ctxs.map GenCtx.passes = [3] := by decide

/-- R99: `GEN_RESET` of a Finalized Tiger2 context keeps pass count and mode. -/
theorem test_genReset :
    let c : GenCtx := { sealedCtx with passes := 7, tiger2 := true }
    let t := after State.reset (exec (.genReset 0) { State.reset with ctxs := [c] })
    t.ctxs = [{ GenCtx.reset with passes := 7, tiger2 := true, buf := c.buf, dig := c.dig }] := by decide +kernel

/-- V8.1 line 2: `UPDATE_BYTE` without a table. -/
theorem test_updateByte_without_table :
    let t := after State.reset (exec (.updateByte 0 0x61) State.reset)
    t.out = [2] ∧ t.fault = 2 ∧ t.ctxs = State.reset.ctxs := by decide

/-- R97: the 64th byte fills the buffer and does not compress it. -/
theorem test_updateByte_is_lazy :
    let c : GenCtx := { GenCtx.reset with count := 63 }
    let t := after tabled (exec (.updateByte 0 0x61) { tabled with ctxs := [c] })
    t.ctxs = [{ c with count := 64, buf := [(63, 0x61)] }] ∧ t.out = [0] := ⟨by rfl, by rfl⟩

/-- V8.1 line 9: `UPDATE` of a Finalized context. -/
theorem test_update_finalized :
    let t := after sealed (exec (.update 0 [0x78]) sealed)
    t.out = [3] ∧ t.fault = 3 := ⟨by rfl, by rfl⟩

/-- P3: the fill field after `UPDATE`; here three bytes into a fresh context, by R101 and R33. -/
theorem test_update_abc :
    let t := after sealed (exec (.update 1 [0x61, 0x62, 0x63]) sealed)
    (t.ctx? 1).map GenCtx.buf = some [(0, 0x61), (1, 0x62), (2, 0x63)] ∧ (t.ctx? 1).map GenCtx.fill = some 3 :=
  ⟨by rfl, by rfl⟩

/-- V8.1 line 3: `FINALIZE` without a table; `FAULT` keeps the first code. -/
theorem test_finalize_without_table :
    let t := after State.reset (exec (.finalize 0) { State.reset with fault := 4 })
    t.out = [2] ∧ t.fault = 4 := by decide

/-- R104, V5.1: a repeated `FINALIZE` answers the cached digest. -/
theorem test_finalize_cached :
    (after sealed (exec (.finalize 0) sealed)).out =
      [0, 0x63AC9332, 0x24F0130C, 0xB1BB925F, 0x16166E76, 0x49584E7A, 0xF373DE2D] := by rfl

/-- P1 lines 3 and 4: the first and the last digest byte. -/
theorem test_digestRead :
    (after sealed (exec (.digestRead 0 0) sealed)).out = [0, 0x00000032] ∧
    (after sealed (exec (.digestRead 0 23) sealed)).out = [0, 0x000000F3] := ⟨by rfl, by rfl⟩

/-- V8.1 line 4: `DIGEST_READ` of an Active context. -/
theorem test_digestRead_active :
    (after State.reset (exec (.digestRead 0 0) State.reset)).out = [4] := by decide

/-- V8.1 line 1: the status image after reset. -/
theorem test_status_reset : (after State.reset (exec (.status 0) State.reset)).out = [0, 0x00000300] := by decide

/-- P1 line 5: the status image after `FINALIZE`. -/
theorem test_status_finalized : (after sealed (exec (.status 0) sealed)).out = [0, 0x00000330] := by rfl

/-- R63 c: with NGEN = 1 the word `61000003` consumes its payload word, stores nothing and is refused. -/
theorem test_step_absent_context :
    let s := { State.reset with inp := [.word 0x61000003, .word 0x00636261, .word 0x90000000] }
    after s (step s) = { s with inp := [.word 0x90000000], fault := 1, out := [1] } := by decide

/-- R150: reset in the middle of an `UPDATE` discards it without a response. -/
theorem test_step_reset_cuts_off :
    let s := { State.reset with inp := [.word 0x60000005, .word 0x64636261, .reset, .word 0x90000000], fault := 2 }
    after s (step s) = { State.reset with inp := [.word 0x90000000], epoch := 1 } := by decide

/-! ## Invariants of the states used as witnesses -/

theorem tabled_table_written : Memory.Written 8192 fillTable.toMemory := fun a ha => by
  rw [lookup_toMemory, if_pos ha]
  rfl

theorem tabled_inv : tabled.Inv where
  ngen_bounds := by decide
  fault_le := by decide
  tbl_wf := wf_toMemory fillTable
  tbl_written := fun _ => tabled_table_written
  ctxs_inv := by
    intro c hc
    obtain rfl : c = GenCtx.reset := by
      have : c ∈ List.replicate 2 GenCtx.reset := hc
      exact (List.mem_replicate.mp this).2
    exact ⟨by decide, rfl, rfl, fun a ha => absurd ha (by simp [GenCtx.reset]), fun _ => rfl,
      fun h => absurd h (by decide), fun h => absurd h (by decide)⟩

theorem sealedCtx_inv : sealedCtx.Inv true where
  passes_ge := by decide
  buf_wf := by decide +kernel
  dig_wf := by decide +kernel
  buf_written := by
    have h : ∀ a, a < 64 → (sealedCtx.buf.lookup a).isSome = true := by decide +kernel
    exact fun a ha => h a (by simpa [sealedCtx] using ha)
  finalized_valid := fun _ => rfl
  finalized_fill := fun _ => by decide
  finalized_dig := fun _ _ _ hk hj => lookup_serialise [] stateV51 hk hj

theorem sealed_inv : sealed.Inv where
  ngen_bounds := by decide
  fault_le := by decide
  tbl_wf := wf_toMemory fillTable
  tbl_written := fun _ => tabled_table_written
  ctxs_inv := by
    intro c hc
    rcases List.mem_cons.mp hc with rfl | hc
    · exact sealedCtx_inv
    · exact tabled_inv.ctxs_inv c (by
        rw [List.mem_singleton.mp hc]
        exact List.mem_replicate.mpr ⟨by decide, rfl⟩)

/-! ## Witnesses: for each statement with hypotheses, inputs that meet them together -/

/-- One well-formed command per constructor, the digest index at its last value. -/
theorem witness_DecodeOfEncodeIsIdentity :
    ([.sboxInitDefault, .sboxInit 5 [0x54], .genNew 15 255 true, .genReset 15, .updateByte 15 0xFF,
      .update 15 [0x61, 0x62, 0x63, 0x64, 0x65], .finalize 15, .digestRead 15 23, .status 15] : List Instr).all
      WellFormed = true := by decide

theorem witness_EncodeOfDecodeIsTheWord :
    [0x00636261#32].length = payloadWords 0x61000003#32 ∧
      decode 0x61000003#32 [0x00636261#32] = .command (.update 1 [0x61, 0x62, 0x63]) := by decide

/-- A head and payload for each clause: the word decodes to the clause's command. -/
theorem witness_DecodeFollowsMaskAndMatch :
    decode 0x10000000#32 [] = .command .sboxInitDefault ∧ decode 0x20FFFFFF#32 [] = .command (.sboxInit 255 []) ∧
    decode 0x3F0001FF#32 [] = .command (.genNew 15 255 true) ∧ decode 0x4F000000#32 [] = .command (.genReset 15) ∧
    decode 0x5F0000FF#32 [] = .command (.updateByte 15 255) ∧ decode 0x6FFFFFFF#32 [] = .command (.update 15 []) ∧
    decode 0x7F000000#32 [] = .command (.finalize 15) ∧ decode 0x8F000017#32 [] = .command (.digestRead 15 23) ∧
    decode 0x9F000000#32 [] = .command (.status 15) := by decide

theorem witness_StepExecutesDecodedCommand :
    fetch [.word 0x61000003, .word 0x00636261, .word 0x71000000] =
        .command 0x61000003 [0x00636261] [.word 0x71000000] ∧
      decode 0x61000003 [0x00636261] = .command (.update 1 [0x61, 0x62, 0x63]) := by decide

theorem witness_StepExecutesEncodedCommand :
    let s := { sealed with inp := [.word 0x61000003, .word 0x00636261, .reset] }
    WellFormed (.update 1 [0x61, 0x62, 0x63]) = true ∧
      s.inp = (encode (.update 1 [0x61, 0x62, 0x63])).map HostEvent.word ++ [.reset] := by decide

/-- An illegal word for each of the eight clauses of `IllegalFor` (two for the first) in a block of one context; the
fourth names the context just past the last. -/
def illegalWords : List Word32 :=
  [0x00000000, 0xA0000000, 0x11000000, 0x31000000, 0x10000001, 0x30000200, 0x50000100, 0x80000020, 0x80000018]

theorem witness_IllegalWordIsRefused :
    (∀ k : Fin illegalWords.length, fetch [.word illegalWords[k], .reset] = .command illegalWords[k] [] [.reset]) ∧
      ∀ k : Fin illegalWords.length, IllegalFor State.reset.ngen illegalWords[k] := by
  refine ⟨by decide +kernel, ?_⟩
  unfold IllegalFor
  decide +kernel

theorem witness_LegalWordIsExecuted :
    fetch [.word 0x80000017, .reset] = .command 0x80000017 [] [.reset] ∧ ¬ IllegalFor State.reset.ngen 0x80000017 := by
  refine ⟨by decide, ?_⟩
  unfold IllegalFor
  decide

theorem witness_IncompleteCommandWaits :
    State.reset.inp = [] ∧
      ({ State.reset with inp := [.word 0x60000005, .word 0x64636261] } : State).inp =
        HostEvent.word 0x60000005 :: [(0x64636261 : Word32)].map HostEvent.word ∧
      [(0x64636261 : Word32)].length < payloadWords 0x60000005 := by decide

/-- Both alternatives: the reset event at the head, and after one of two payload words. -/
theorem witness_ResetEventRestoresRegisters :
    ({ sealed with inp := [.reset, .word 0] } : State).inp = ([] : List Word32).map HostEvent.word ++ [.reset, .word 0] ∧
      ({ sealed with inp := [.word 0x60000005, .word 0x64636261, .reset] } : State).inp =
        [0x60000005, 0x64636261].map HostEvent.word ++ [.reset] ∧
      [(0x64636261 : Word32)].length < payloadWords 0x60000005 := by decide

theorem witness_RefusedCommandChangesOnlyFault :
    ∃ t, exec (.update 0 [0x78]) sealed = .next t ∧ (3 : BitVec 4) ≠ 0 ∧ t.out = sealed.out ++ [statusWord 3] :=
  ⟨_, rfl, by decide, rfl⟩

theorem witness_FaultRegisterBlocksNothing :
    (∀ g, Instr.finalize 0 ≠ .status g) ∧ ∃ t, exec (.finalize 0) sealed = .next t :=
  ⟨fun _ h => Instr.noConfusion h, _, rfl⟩

/-- Both clauses: a step that refuses a word, from `FAULT` 0 and from `FAULT` 2. -/
theorem witness_FirstFaultIsKept :
    (∀ rest, fetch [.word 0] ≠ .reset rest) ∧
      (∃ t, step { State.reset with inp := [.word 0] } = .next t ∧ t.fault = 1) ∧
      ∃ t, step { State.reset with inp := [.word 0], fault := 2 } = .next t ∧ t.fault = 2 :=
  ⟨fun _ h => Fetched.noConfusion h, ⟨_, rfl, rfl⟩, _, rfl, rfl⟩

theorem witness_SboxInvalidRaisedExactly : ∃ t, exec (.finalize 0) State.reset = .next t ∧ t.out = [2] := ⟨_, rfl, rfl⟩

theorem witness_FinalizedRaisedExactly : ∃ t, exec (.updateByte 0 0x78) sealed = .next t ∧ t.out = [3] := ⟨_, rfl, rfl⟩

theorem witness_NoDigestRaisedExactly : ∃ t, exec (.digestRead 1 23) sealed = .next t ∧ t.out = [4] := ⟨_, rfl, rfl⟩

/-- Both clauses: the context just past the last, and the index just past the last. -/
theorem witness_IllegalCommandRaisedExactly :
    (∃ t, exec (.digestRead 2 0) sealed = .next t ∧ t.out = [1]) ∧
      ∃ t, exec (.digestRead 0 24) sealed = .next t ∧ t.out = [1] := ⟨⟨_, rfl, rfl⟩, _, rfl, rfl⟩

/-- Two seeds that agree, zero-padded, on their first 64 bytes, and two different states. -/
theorem witness_TableDependsOnSeedAndPassesAlone :
    (∀ k, k < 64 → (([0x54] : List Byte)[k]?).getD 0 = (([0x54, 0] : List Byte)[k]?).getD 0) ∧
      (∃ t, exec (.sboxInit 1 [0x54]) sealed = .next t) ∧ (∃ t, exec (.sboxInit 1 [0x54, 0]) State.reset = .next t) ∧
      (∃ t, exec .sboxInitDefault sealed = .next t) ∧ ∃ t, exec .sboxInitDefault State.reset = .next t :=
  ⟨by decide, ⟨_, rfl⟩, ⟨_, rfl⟩, ⟨_, rfl⟩, _, rfl⟩

theorem witness_LanesStayPermutations : (∃ t, exec (.sboxInit 1 [0x54]) State.reset = .next t) ∧ 3 < 4 ∧ 7 < 8 :=
  ⟨⟨_, rfl⟩, by decide, by decide⟩

/-- The last entry of the last sub-table, and the last lane. -/
theorem witness_RollingCounterHasPeriodThree :
    let w : Words8 := ⟨0, 0, 0, 0, 0, 0, 0, 0⟩
    (∃ l l', l = GenLoop.run w 1023 0 GenLoop.start ∧ l' = GenLoop.run w (1023 + 1) 0 GenLoop.start) ∧
      3 < 4 ∧ 255 < 256 ∧ 7 < 8 :=
  ⟨⟨_, _, rfl, rfl⟩, by decide⟩

theorem witness_OnlySboxCommandsWriteTable :
    (∃ t, exec (.finalize 0) sealed = .next t) ∧ Instr.finalize 0 ≠ .sboxInitDefault ∧
      ∀ p d, Instr.finalize 0 ≠ .sboxInit p d :=
  ⟨⟨_, rfl⟩, Instr.noConfusion, fun _ _ => Instr.noConfusion⟩

/-- Both clauses: a reset event that clears the bit, and a command that sets it. -/
theorem witness_SboxValidClearedOnlyByReset :
    (∃ t, step { sealed with inp := [.reset] } = .next t ∧ sealed.sboxValid = true ∧ t.sboxValid = false) ∧
      ∃ t, step { State.reset with inp := [.word 0x20000000] } = .next t ∧ State.reset.sboxValid = false ∧
        t.sboxValid = true := ⟨⟨_, rfl, rfl, rfl⟩, _, rfl, rfl, rfl⟩

theorem witness_TableWordIsEightBytes : fillTable.toMemory.wf 8192 = true ∧ 1023 < 1024 :=
  ⟨wf_toMemory fillTable, by decide⟩

/-- The words named in the three clauses, for one additional pass over a block of zeros. -/
theorem witness_CompressRunsAtLeastThreePasses :
    let x : Words8 := ⟨0, 0, 0, 0, 0, 0, 0, 0⟩
    let st := Config.iv
    (∃ r, r = [x.x0, x.x1, x.x2, x.x3, x.x4, x.x5, x.x6, x.x7].foldl
      (fun v xk => round fillTable v.w1 v.w2 v.w0 xk 5) ⟨st.w2, st.w0, st.w1⟩) ∧ (∃ z, z = schedule x) ∧
    ∃ p1 p2 p3 v x',
      p1 = pass fillTable st.w0 st.w1 st.w2 x 5 ∧
      p2 = pass fillTable p1.w2 p1.w0 p1.w1 (schedule x) 7 ∧
      p3 = pass fillTable p2.w2 p2.w0 p2.w1 (schedule (schedule x)) 9 ∧
      (v, x') = Nat.iterate (fun vx : Words3 × Words8 =>
          let q := pass fillTable vx.1.w0 vx.1.w1 vx.1.w2 (schedule vx.2) 9
          (⟨q.w2, q.w0, q.w1⟩, schedule vx.2))
        (max 3 4 - 3) (⟨p3.w2, p3.w0, p3.w1⟩, schedule (schedule x)) :=
  ⟨⟨_, rfl⟩, ⟨_, rfl⟩, _, _, _, _, _, rfl, rfl, rfl, rfl⟩

/-- Both clauses: the last context, and one past it. -/
theorem witness_GenNewRestartsContext : sealed.ctx? 1 = some GenCtx.reset ∧ sealed.ctx? 2 = none := ⟨rfl, rfl⟩

theorem witness_GenResetRestartsContext : sealed.ctx? 0 = some sealedCtx ∧ sealed.ctx? 15 = none := ⟨rfl, rfl⟩

/-- An Active context with a full buffer that waits, in a block with a table. -/
theorem witness_UpdateByteStoresOneByte :
    let c : GenCtx := { sealedCtx with finalized := false }
    let s := { sealed with ctxs := [c] }
    s.ctx? 0 = some c ∧ s.sboxValid = true ∧ c.finalized = false ∧ c.count ≠ 0 ∧ c.count.toNat % 64 = 0 :=
  ⟨rfl, rfl, rfl, by decide, by decide⟩

/-- A fresh context and data of one byte more than a block: the first byte's place is taken again, the last 64 bytes
keep theirs. -/
theorem witness_UpdateAcceptsEveryByte :
    tabled.ctx? 1 = some GenCtx.reset ∧ tabled.sboxValid = true ∧ GenCtx.reset.finalized = false ∧
      (List.replicate 65 (0x61 : Byte)).length ≤ 1 + 64 ∧
      ∀ k, k < (List.replicate 3 (0x61 : Byte)).length → 63 ≠ (GenCtx.reset.count.toNat + k) % 64 :=
  ⟨rfl, rfl, rfl, by decide, by decide⟩

theorem witness_FirstBlockIsNotCompressedEarly :
    ∃ t c', tabled.ctx? 1 = some GenCtx.reset ∧ GenCtx.reset.count = 0 ∧
      (List.replicate 64 (0x61 : Byte)).length ≤ 64 ∧
      exec (.update 1 (List.replicate 64 0x61)) tabled = .next t ∧ t.ctx? 1 = some c' :=
  ⟨_, _, rfl, rfl, by decide, rfl, rfl⟩

theorem witness_ChunkingDoesNotMatter :
    ∃ s1 s2 t, exec (.update 1 [0x61]) tabled = .next s1 ∧ exec (.update 1 [0x62, 0x63]) s1 = .next s2 ∧
      exec (.update 1 ([0x61] ++ [0x62, 0x63])) tabled = .next t := ⟨_, _, _, rfl, rfl, rfl⟩

/-- An Active context that has taken `n` bytes, at most 64, all of them zeros. -/
def filled (n : Nat) : GenCtx :=
  { GenCtx.reset with count := BitVec.ofNat 64 n, buf := (List.range n).map fun a => (a, 0) }

/-- A fresh context, and contexts at fill 55 (the padding fits the block), fill 56 (it does not) and fill 0 with a full
block that waits. -/
theorem witness_FinalizePadsAndSeals :
    tabled.ctx? 1 = some GenCtx.reset ∧ tabled.sboxValid = true ∧ GenCtx.reset.finalized = false ∧
      ∀ n ∈ [55, 56, 64], let s := { tabled with ctxs := [filled n] }
        s.ctx? 0 = some (filled n) ∧ s.sboxValid = true ∧ (filled n).finalized = false ∧ (filled n).fill = n % 64 := by
  refine ⟨rfl, rfl, rfl, fun n hn => ⟨rfl, rfl, rfl, ?_⟩⟩
  revert n
  decide

/-- Both clauses: a Finalized context, and an Active one. -/
theorem witness_RepeatedFinalizeChangesNothing :
    (sealed.ctx? 0 = some sealedCtx ∧ sealed.sboxValid = true ∧ sealedCtx.finalized = true) ∧
      tabled.ctx? 0 = some GenCtx.reset ∧ tabled.sboxValid = true := ⟨⟨rfl, rfl, rfl⟩, rfl, rfl⟩

theorem witness_DigestReadAgreesWithFinalize :
    tabled.ctx? 0 = some GenCtx.reset ∧ tabled.sboxValid = true ∧ (23 : BitVec 5).toNat < 24 :=
  ⟨rfl, rfl, by decide⟩

theorem witness_DigestReadReturnsStateByte :
    sealed.Inv ∧ sealed.ctx? 0 = some sealedCtx ∧ sealedCtx.finalized = true ∧ (23 : BitVec 5).toNat < 24 :=
  ⟨sealed_inv, rfl, rfl, by decide⟩

theorem witness_StatusShowsTheFlags : sealed.ctx? 0 = some sealedCtx ∧ sealed.ctx? 2 = none := ⟨rfl, rfl⟩

/-- A command of context 0 beside context 1, and an SBox command. -/
theorem witness_CommandsTouchOnlyTheirContext :
    (∃ t, exec (.genReset 0) sealed = .next t) ∧ (Instr.genReset 0).ctx? = some 0 ∧ (1 : CtxNum) ≠ 0 ∧
      (∃ t, exec (.sboxInit 0 []) sealed = .next t) ∧ (Instr.sboxInit 0 []).ctx? = none :=
  ⟨⟨_, rfl⟩, rfl, by decide, ⟨_, rfl⟩, rfl⟩

/-- Two states that differ in context 1. -/
theorem witness_OtherContextsDoNotInfluence :
    let s' := { sealed with ctxs := [sealedCtx, sealedCtx] }
    (Instr.finalize 0).ctx? = some 0 ∧ SameForCtx 0 sealed s' ∧ (∃ t, exec (.finalize 0) sealed = .next t) ∧
      ∃ t, exec (.finalize 0) s' = .next t :=
  ⟨rfl, ⟨rfl, rfl, rfl, rfl, rfl⟩, ⟨_, rfl⟩, _, rfl⟩

/-- Both clauses: `FINALIZE` of an Active context and `GEN_RESET` of a Finalized one. -/
theorem witness_FinalizedChangesOnlyAsStated :
    (∃ t c', exec (.finalize 0) tabled = .next t ∧ tabled.ctx? 0 = some GenCtx.reset ∧ t.ctx? 0 = some c' ∧
      GenCtx.reset.finalized = false ∧ c'.finalized = true) ∧
    ∃ t c', exec (.genReset 0) sealed = .next t ∧ sealed.ctx? 0 = some sealedCtx ∧ t.ctx? 0 = some c' ∧
      sealedCtx.finalized = true ∧ c'.finalized = false :=
  ⟨⟨_, _, rfl, rfl, rfl, rfl, rfl⟩, _, _, rfl, rfl, rfl, rfl, rfl⟩

theorem witness_OnlyGenNewSetsPassesAndMode :
    ∃ t c', exec (.genNew 0 7 true) sealed = .next t ∧ sealed.ctx? 0 = some sealedCtx ∧ t.ctx? 0 = some c' ∧
      (c'.passes ≠ sealedCtx.passes ∨ c'.tiger2 ≠ sealedCtx.tiger2) :=
  ⟨_, _, rfl, rfl, rfl, .inl (by decide)⟩

theorem witness_CachedDigestIsImmutable :
    ∃ t c', exec (.genReset 0) sealed = .next t ∧ sealed.ctx? 0 = some sealedCtx ∧ t.ctx? 0 = some c' ∧
      sealedCtx.finalized = true := ⟨_, _, rfl, rfl, rfl, rfl⟩

theorem witness_InvariantsHoldAtReset : 1 ≤ 16 ∧ 16 ≤ 16 := by decide

/-- A step that executes a command in a state with a Finalized context. -/
theorem witness_StepKeepsInvariants :
    sealed.Inv ∧ State.Inv { sealed with inp := [.word 0x40000000] } ∧
      ∃ t, step { sealed with inp := [.word 0x40000000] } = .next t :=
  ⟨sealed_inv, ⟨sealed_inv.ngen_bounds, sealed_inv.fault_le, sealed_inv.tbl_wf, sealed_inv.tbl_written,
    sealed_inv.ctxs_inv⟩, _, rfl⟩

theorem witness_StepKeepsCanonicalMemory :
    State.Canonical { sealed with inp := [.word 0x20000000] } ∧
      ∃ t, step { sealed with inp := [.word 0x20000000] } = .next t :=
  ⟨⟨sealed_inv.tbl_wf, fun c hc => ⟨(sealed_inv.ctxs_inv c hc).buf_wf, (sealed_inv.ctxs_inv c hc).dig_wf⟩⟩, _, rfl⟩

theorem witness_StepKeepsContextCount : ∃ t, step { sealed with inp := [.reset] } = .next t ∧ t.ngen = 2 :=
  ⟨_, rfl, rfl⟩

theorem witness_NothingDependsOnTheResetDraw : tabled.Inv ∧ ∃ t, exec (.finalize 1) tabled = .next t :=
  ⟨tabled_inv, _, rfl⟩

/-- A context with no byte written, and one with all 64. -/
theorem witness_BufferIsReadOnlyWhereWritten :
    Memory.Written (min GenCtx.reset.count.toNat 64) GenCtx.reset.buf ∧
      Memory.Written (min sealedCtx.count.toNat 64) sealedCtx.buf :=
  ⟨fun a ha => absurd ha (by simp [GenCtx.reset]), sealedCtx_inv.buf_written⟩

theorem witness_HashCommandsComputeTheDigest :
    sealed.ctx? 0 = some sealedCtx ∧ sealed.sboxValid = true ∧ ([0x61, 0x62, 0x63] : List Byte).length < 2 ^ 61 :=
  ⟨rfl, rfl, by decide⟩

/-- A Finalized context and a fresh one, in two states with the same table. -/
theorem witness_DigestDependsOnMessageAndModeAlone :
    ∃ t t', sealed.ctx? 0 = some sealedCtx ∧ tabled.ctx? 1 = some GenCtx.reset ∧ sealed.sboxValid = true ∧
      tabled.sboxValid = true ∧ sealed.table = tabled.table ∧ sealedCtx.passes = GenCtx.reset.passes ∧
      sealedCtx.tiger2 = GenCtx.reset.tiger2 ∧ ([0x61] : List Byte).length < 2 ^ 61 ∧
      execAll (hashCommands 0 [0x61]) sealed = .next t ∧ execAll (hashCommands 1 [0x61]) tabled = .next t' :=
  ⟨_, _, rfl, rfl, rfl, rfl, rfl, rfl, rfl, by decide, rfl, rfl⟩

theorem witness_DigestOrderIsLexicographic :
    (stateBytes stateV51).length = 24 ∧ (stateBytes Config.iv).length = 24 := by decide

theorem witness_DigestTextIsFaithful :
    (stateBytes stateV51).length = 24 ∧ digestText (stateBytes stateV51) = digestText (stateBytes stateV51) :=
  ⟨by decide, rfl⟩

end Sys2Proof.Tests
end

section
/-! SUPPORT. The number of contexts is fixed (R5): no operation on the state adds or removes a context, so neither does
a command or a step. -/

namespace Sys2Proof.Proofs
open Sys2Proof.Machine Sys2Proof.Laws

/-- Selecting a context keeps `NGEN` when what follows the selection keeps it. -/
theorem onCtx_ngen {s : State} {g : CtxNum} {f : GenCtx → State} (hf : ∀ c, (f c).ngen = s.ngen) :
    (s.onCtx g f).ngen = s.ngen := by
  rcases onCtx_cases s g f with ⟨_, h⟩ | ⟨c, _, h⟩
  · rw [h, raise_ngen]
  · rw [h, hf c]

@[simp] theorem acceptBytes_ngen (s : State) (g : CtxNum) (data : List Byte) :
    (s.acceptBytes g data).ngen = s.ngen := by
  rcases acceptBytes_cases s g data with ⟨_, h⟩ | ⟨_, _, ⟨_, h⟩ | ⟨_, _, h⟩ | ⟨_, _, h⟩⟩ <;> simp [h]

/-- Executing a command keeps `NGEN`: it answers, refuses, builds the table or replaces one context in its place. -/
theorem exec_keeps_ngen {i : Instr} {s t : State} (h : exec i s = .next t) : t.ngen = s.ngen := by
  cases i <;> obtain rfl := Host.Outcome.next.inj h
  case sboxInitDefault => exact buildTable_ngen s _
  case sboxInit => exact buildTable_ngen s _
  case genNew => exact onCtx_ngen fun c => by simp
  case genReset => exact onCtx_ngen fun c => by simp
  case updateByte g byte => exact acceptBytes_ngen s g [byte]
  case update g data => exact acceptBytes_ngen s g data
  case finalize =>
    refine onCtx_ngen fun c => ?_
    split
    · exact raise_ngen s _
    · split <;> simp
  case digestRead =>
    split
    · exact raise_ngen s _
    · exact onCtx_ngen fun c => by split <;> simp
  case status => exact onCtx_ngen fun c => respond_ngen s _

/-- Settles O52: waiting, the reset event, the refusal of an illegal word and the execution of a command each keep the
length of the context list. -/
theorem stepKeepsContextCount : Obligations.StepKeepsContextCount := by
  intro s t ht
  rcases step_cases s with ⟨_, h⟩ | ⟨rest, _, h⟩ | ⟨_, _, rest, _, _, _, h⟩ | ⟨_, _, rest, i, _, _, h⟩ <;>
    rw [h] at ht
  · obtain rfl := Host.Outcome.next.inj ht
    rfl
  · obtain rfl := Host.Outcome.next.inj ht
    exact hostReset_ngen s rest
  · obtain rfl := Host.Outcome.next.inj ht
    exact raise_ngen { s with inp := rest } _
  · calc t.ngen = State.ngen { s with inp := rest } := exec_keeps_ngen ht
      _ = s.ngen := withInp_ngen s rest

end Sys2Proof.Proofs
end

section
/-! SUPPORT. What a command can do to the state, said once: refuse, answer, build the table, or replace the registers
of the context it names. -/

namespace Sys2Proof.Proofs
open Sys2Proof.Machine Sys2Proof.Laws

/-- The commands that replace the registers of context `g`, the guards under which they do, and the registers `c'` that
they leave where they found `c` (R98 to R102). -/
inductive CtxChange (s : State) (g : CtxNum) (c : GenCtx) : Instr → GenCtx → Prop where
  /-- `GEN_NEW` (R98). -/
  | genNew (passes : BitVec 8) (tiger2 : Bool) :
      CtxChange s g c (.genNew g passes tiger2) { c.restart with passes := clampPasses passes, tiger2 := tiger2 }
  /-- `GEN_RESET` (R99). -/
  | genReset : CtxChange s g c (.genReset g) c.restart
  /-- `UPDATE_BYTE` of an Active context, with a table (R100). -/
  | updateByte (byte : Byte) (hvalid : s.sboxValid = true) (hactive : c.finalized = false) :
      CtxChange s g c (.updateByte g byte) (c.storeBytes s.table (s.bufJunk g) [byte])
  /-- `UPDATE` of an Active context, with a table (R101). -/
  | update (data : List Byte) (hvalid : s.sboxValid = true) (hactive : c.finalized = false) :
      CtxChange s g c (.update g data) (c.storeBytes s.table (s.bufJunk g) data)
  /-- `FINALIZE` of an Active context, with a table (R102). -/
  | finalize (hvalid : s.sboxValid = true) (hactive : c.finalized = false) :
      CtxChange s g c (.finalize g) ((c.pad s.table (s.bufJunk g)).seal s.table (s.bufJunk g))

/-- Everything a command can do to the state `s`; which code a refusal has is left to the single commands. -/
inductive Effect (s : State) (i : Instr) : State → Prop where
  /-- It is refused (R131). -/
  | refused (e : ErrCode) : Effect s i (s.raise e)
  /-- It answers and changes nothing (R104, R120, R121). -/
  | answered (data : List Word32) : Effect s i (s.respond data)
  /-- It builds the table (R71, R72). -/
  | built (tab : Table) (hi : i = .sboxInitDefault ∨ ∃ passes seed, i = .sboxInit passes seed) :
      Effect s i (s.buildTable tab)
  /-- It replaces the registers of one context and answers (R98 to R102). -/
  | replaced {g : CtxNum} {c c' : GenCtx} (data : List Word32) (hc : s.ctx? g = some c)
      (hchange : CtxChange s g c i c') : Effect s i ((s.setCtx g c').respond data)

/-- Selecting a context has an effect of the command when what follows the selection has. -/
theorem onCtx_effect {s : State} {i : Instr} {g : CtxNum} {f : GenCtx → State}
    (hf : ∀ c, s.ctx? g = some c → Effect s i (f c)) : Effect s i (s.onCtx g f) := by
  rcases onCtx_cases s g f with ⟨_, h⟩ | ⟨c, hc, h⟩
  · exact h ▸ .refused _
  · exact h ▸ hf c hc

/-- Accepting message bytes refuses, or replaces the context by the one with the bytes stored. -/
theorem acceptBytes_effect {s : State} {i : Instr} {g : CtxNum} {data : List Byte}
    (hchange : ∀ c, s.sboxValid = true → c.finalized = false →
      CtxChange s g c i (c.storeBytes s.table (s.bufJunk g) data)) : Effect s i (s.acceptBytes g data) := by
  rcases acceptBytes_cases s g data with ⟨_, h⟩ | ⟨c, hc, ⟨_, h⟩ | ⟨_, _, h⟩ | ⟨hvalid, hactive, h⟩⟩ <;> rw [h]
  · exact .refused _
  · exact .refused _
  · exact .refused _
  · exact .replaced [] hc (hchange c hvalid hactive)

/-- What executing a command can do. -/
theorem exec_effect {i : Instr} {s t : State} (h : exec i s = .next t) : Effect s i t := by
  cases i <;> obtain rfl := Host.Outcome.next.inj h
  case sboxInitDefault => exact .built _ (.inl rfl)
  case sboxInit passes seed => exact .built _ (.inr ⟨passes, seed, rfl⟩)
  case genNew g passes tiger2 => exact onCtx_effect fun c hc => .replaced [] hc (.genNew passes tiger2)
  case genReset g => exact onCtx_effect fun c hc => .replaced [] hc .genReset
  case updateByte g byte => exact acceptBytes_effect fun c => .updateByte byte
  case update g data => exact acceptBytes_effect fun c => .update data
  case finalize g =>
    refine onCtx_effect fun c hc => ?_
    cases hvalid : s.sboxValid with
    | false => exact .refused _
    | true =>
      cases hactive : c.finalized with
      | true => exact .answered _
      | false => exact .replaced _ hc (.finalize hvalid hactive)
  case digestRead g idx =>
    split
    · exact .refused _
    · refine onCtx_effect fun c _ => ?_
      split
      · exact .answered _
      · exact .refused _
  case status g => exact onCtx_effect fun c _ => .answered _

/-- What a command leaves of one context: what it found, or what a command on that context stores. -/
theorem exec_ctx?_cases {i : Instr} {s t : State} {g : CtxNum} {c c' : GenCtx} (h : exec i s = .next t)
    (hc : s.ctx? g = some c) (hc' : t.ctx? g = some c') : c' = c ∨ CtxChange s g c i c' := by
  cases exec_effect h with
  | refused e => exact .inl (Option.some.inj (hc'.symm.trans hc))
  | answered data => exact .inl (Option.some.inj (hc'.symm.trans hc))
  | built tab => exact .inl (Option.some.inj (hc'.symm.trans hc))
  | @replaced g₁ c₁ d data hc₁ hchange =>
    rw [respond_ctx?] at hc'
    by_cases hg : g = g₁
    · subst hg
      obtain rfl := Option.some.inj (hc.symm.trans hc₁)
      obtain rfl := Option.some.inj ((ctx?_setCtx_same hc d).symm.trans hc')
      exact .inr hchange
    · rw [ctx?_setCtx_other hg] at hc'
      exact .inl (Option.some.inj (hc'.symm.trans hc))

end Sys2Proof.Proofs
end

section
/-! SUPPORT. The registers of a context under the commands (R20, R21, R22, R25): each statement reads off the commands
that replace a context's registers. -/

namespace Sys2Proof.Proofs
open Sys2Proof.Machine Sys2Proof.Laws

@[simp] theorem pad_passes (t : Table) (junk : Nat → Byte) (c : GenCtx) : (c.pad t junk).passes = c.passes := by
  rw [pad_eq, storeBytes_passes]

@[simp] theorem pad_tiger2 (t : Table) (junk : Nat → Byte) (c : GenCtx) : (c.pad t junk).tiger2 = c.tiger2 := by
  rw [pad_eq, storeBytes_tiger2]

@[simp] theorem pad_dig (t : Table) (junk : Nat → Byte) (c : GenCtx) : (c.pad t junk).dig = c.dig := by
  rw [pad_eq, storeBytes_dig]

/-- Settles O46: storing bytes keeps FINALIZED, so only sealing sets it and only a restart clears it. -/
theorem finalizedChangesOnlyAsStated : Obligations.FinalizedChangesOnlyAsStated := by
  intro i s t g c c' h hc hc'
  rcases exec_ctx?_cases h hc hc' with rfl | hchange
  · constructor <;> intro h0 h1 <;> simp [h0] at h1
  · cases hchange with
    | genNew passes tiger2 => exact ⟨by simp, fun _ _ => .inr ⟨passes, tiger2, rfl⟩⟩
    | genReset => exact ⟨by simp, fun _ _ => .inl rfl⟩
    | updateByte _ _ hactive => simp [hactive]
    | update _ _ hactive => simp [hactive]
    | finalize _ _ => simp

/-- Settles O47: every other command stores the pass count and the padding mode that it found. -/
theorem onlyGenNewSetsPassesAndMode : Obligations.OnlyGenNewSetsPassesAndMode := by
  intro i s t g c c' h hc hc' hne
  rcases exec_ctx?_cases h hc hc' with rfl | hchange
  · simp at hne
  · cases hchange with
    | genNew passes tiger2 => exact ⟨passes, tiger2, rfl, clampPasses_toNat passes, rfl⟩
    | genReset => simp at hne
    | updateByte _ _ _ => simp at hne
    | update _ _ _ => simp at hne
    | finalize _ _ => simp at hne

/-- Settles O48: a restart keeps DIG, and the commands that store bytes or seal need an Active context. -/
theorem cachedDigestIsImmutable : Obligations.CachedDigestIsImmutable := by
  intro i s t g c c' h hc hc' hfinal
  rcases exec_ctx?_cases h hc hc' with rfl | hchange
  · rfl
  · cases hchange with
    | genNew _ _ => rfl
    | genReset => rfl
    | updateByte _ _ hactive => simp [hactive] at hfinal
    | update _ _ hactive => simp [hactive] at hfinal
    | finalize _ hactive => simp [hactive] at hfinal

end Sys2Proof.Proofs
end

section
/-! SUPPORT. `FAULT` and `SBOX_VALID` under a step (R17, R18). -/

namespace Sys2Proof.Proofs
open Sys2Proof.Machine Sys2Proof.Laws

/-- A command is refused, or it keeps `FAULT` and answers `OK` (R49, R131). -/
theorem exec_refused_or_ok {i : Instr} {s t : State} (h : exec i s = .next t) :
    (∃ e, t = s.raise e) ∨ t.fault = s.fault ∧ ∃ data, t.out = s.out ++ statusWord 0 :: data := by
  cases exec_effect h with
  | refused e => exact .inl ⟨e, rfl⟩
  | answered data => exact .inr ⟨rfl, data, rfl⟩
  | built tab => exact .inr ⟨rfl, [], rfl⟩
  | replaced data => exact .inr ⟨rfl, data, rfl⟩

/-- An `OK` answer is not a fault's code alone (R49). -/
theorem append_ok_ne_append_code (out data : List Word32) (e : ErrCode) :
    out ++ statusWord 0 :: data ≠ out ++ [statusWord e.code] := fun h =>
  statusWord_code_ne e (List.cons.inj (List.append_cancel_left h)).1.symm

/-- Settles O14: without a reset event a step waits, refuses, or answers `OK` with `FAULT` kept. -/
theorem firstFaultIsKept : Obligations.FirstFaultIsKept := by
  intro s t ht hnoReset
  have hrefused : ∀ (rest : List HostEvent) (e : ErrCode), t = State.raise { s with inp := rest } e →
      (s.fault ≠ 0 → t.fault = s.fault) ∧
      (s.fault = 0 → ∃ e : ErrCode, t.fault = e.code ∧ t.out = s.out ++ [statusWord e.code]) := by
    rintro rest e rfl
    exact ⟨fun h => if_neg h, fun h => ⟨e, if_pos h, rfl⟩⟩
  rcases step_cases s with ⟨_, h⟩ | ⟨rest, hreset, _⟩ | ⟨_, _, rest, _, _, _, h⟩ | ⟨_, _, rest, i, _, _, h⟩
  · obtain rfl := Host.Outcome.next.inj (h.symm.trans ht)
    exact ⟨fun _ => rfl, fun h0 => .inl ⟨h0, fun e => by simp⟩⟩
  · exact absurd hreset (hnoReset rest)
  · obtain ⟨hkeep, htake⟩ := hrefused rest _ (Host.Outcome.next.inj (ht.symm.trans h))
    exact ⟨hkeep, fun h0 => .inr (htake h0)⟩
  · rcases exec_refused_or_ok (h.symm.trans ht) with ⟨e, he⟩ | ⟨hfault, data, hout⟩
    · obtain ⟨hkeep, htake⟩ := hrefused rest e he
      exact ⟨hkeep, fun h0 => .inr (htake h0)⟩
    · exact ⟨fun _ => hfault, fun h0 => .inl ⟨hfault.trans h0, fun e => hout ▸ append_ok_ne_append_code _ _ e⟩⟩

/-- A command keeps `SBOX_VALID`, or it is one of the two SBox commands and sets it (R71, R72). -/
theorem exec_sboxValid {i : Instr} {s t : State} (h : exec i s = .next t) :
    t.sboxValid = s.sboxValid ∨
      t.sboxValid = true ∧ (i = .sboxInitDefault ∨ ∃ passes seed, i = .sboxInit passes seed) := by
  cases exec_effect h with
  | refused e => exact .inl rfl
  | answered data => exact .inl rfl
  | built tab hi => exact .inr ⟨rfl, hi⟩
  | replaced data => exact .inl rfl

/-- Settles O27: beside the reset event only a command can change `SBOX_VALID`, and only the SBox commands do. -/
theorem sboxValidClearedOnlyByReset : Obligations.SboxValidClearedOnlyByReset := by
  intro s t ht
  rcases step_cases s with
    ⟨_, h⟩ | ⟨rest, hreset, h⟩ | ⟨_, _, rest, _, _, _, h⟩ | ⟨head, payload, rest, i, hfetch, hdecode, h⟩ <;>
    rw [h] at ht
  · obtain rfl := Host.Outcome.next.inj ht
    constructor <;> intro h0 h1 <;> simp [h0] at h1
  · obtain rfl := Host.Outcome.next.inj ht
    exact ⟨fun _ _ => ⟨rest, hreset⟩, by simp⟩
  · obtain rfl := Host.Outcome.next.inj ht
    constructor <;> intro h0 h1 <;> simp [h0] at h1
  · rcases exec_sboxValid ht with hkept | ⟨hset, hi⟩
    · constructor <;> intro h0 h1 <;> simp [hkept, h0] at h1
    · exact ⟨fun _ h1 => by simp [hset] at h1, fun _ _ => ⟨head, payload, rest, i, hfetch, hdecode, hi⟩⟩

end Sys2Proof.Proofs
end

section
/-! SUPPORT. The bytes of `BUF` that have been written (R26 b, d): storing bytes keeps the counted ones written, the
padding writes all 64, and only written bytes are read. -/

namespace Sys2Proof.Proofs
open Sys2Proof.Machine Sys2Proof.Laws

theorem written_write {n : Nat} {m : Memory} (a : Nat) (b : Byte) (h : m.Written n) : (m.write a b).Written n := by
  intro x hx
  rw [lookup_write]
  split
  · rfl
  · exact h x hx

section reads
variable {n : Nat} {m : Memory} (junk junk' : Nat → Byte)

/-- A written byte is read as it was written, whatever the address held after reset (R151). -/
theorem read_eq_of_written (h : m.Written n) {a : Nat} (ha : a < n) : m.read junk a = m.read junk' a := by
  obtain ⟨b, hb⟩ := Option.isSome_iff_exists.mp (h a ha)
  simp [Memory.read, hb]

theorem read8_eq_of_written (h : m.Written n) {a : Nat} (ha : a + 8 ≤ n) : m.read8 junk a = m.read8 junk' a := by
  have hread : ∀ j < 8, m.read junk (a + j) = m.read junk' (a + j) :=
    fun j hj => read_eq_of_written junk junk' h (by omega)
  simp (disch := decide) only [Memory.read8, wordFromBytes, hread]

/-- A fully written buffer determines the block (R96). -/
theorem block_eq_of_written {c : GenCtx} (h : c.buf.Written 64) : c.block junk = c.block junk' := by
  simp [GenCtx.block, read8_eq_of_written junk junk' h]

end reads

section store
variable (t : Table) (junk : Nat → Byte) {c : GenCtx}

/-- Storing bytes leaves written bytes written. -/
theorem written_storeBytes_of_written {n : Nat} (bs : List Byte) (h : c.buf.Written n) :
    (c.storeBytes t junk bs).buf.Written n := by
  induction bs generalizing c with
  | nil => exact h
  | cons b bs ih =>
    rw [storeBytes_cons]
    exact ih (by rw [storeByte_buf]; exact written_write _ b h)

/-- The byte-store step writes the byte that it counts (R26 b, R97). -/
theorem counted_written_storeByte (b : Byte) (h : c.buf.Written (min c.count.toNat 64)) :
    (c.storeByte t junk b).buf.Written (min (c.storeByte t junk b).count.toNat 64) := by
  intro x hx
  rw [storeByte_buf, lookup_write]
  split_ifs with hxf
  · rfl
  · refine h x ?_
    rw [storeByte_count, BitVec.toNat_add] at hx
    simp only [GenCtx.fill] at hxf
    have : (1 : BitVec 64).toNat = 1 := rfl
    omega

theorem counted_written_storeBytes (bs : List Byte) (h : c.buf.Written (min c.count.toNat 64)) :
    (c.storeBytes t junk bs).buf.Written (min (c.storeBytes t junk bs).count.toNat 64) := by
  induction bs generalizing c with
  | nil => exact h
  | cons b bs ih => rw [storeBytes_cons]; exact ih (counted_written_storeByte t junk b h)

/-- The padding adds a marker, the zeros and eight length bytes to the counter (R102, R105, R109). -/
theorem pad_count (c : GenCtx) :
    (c.pad t junk).count.toNat = (c.count.toNat + (padZeroCount c.count.toNat + 9)) % 2 ^ 64 := by
  rw [pad_eq, storeBytes_count, BitVec.toNat_add, BitVec.toNat_ofNat, Nat.add_mod_mod]
  simp

/-- The padding ends on a block boundary (R26 c, R103). -/
theorem pad_fill (c : GenCtx) : (c.pad t junk).fill = 0 := by
  rw [GenCtx.fill, pad_count]
  unfold padZeroCount
  split <;> omega

/-- The padding leaves a full buffer: from 64 counted bytes on it was full before, also where the counter wraps to 0
(R109), and below that the counter reaches 64. -/
theorem written_pad (h : c.buf.Written (min c.count.toNat 64)) : (c.pad t junk).buf.Written 64 := by
  by_cases hc : 64 ≤ c.count.toNat
  · rw [Nat.min_eq_right hc] at h
    rw [pad_eq]
    exact written_storeBytes_of_written t junk _ h
  · have hcount : 64 ≤ (c.pad t junk).count.toNat := by
      rw [pad_count]
      unfold padZeroCount
      split <;> omega
    have hpad : (c.pad t junk).buf.Written (min (c.pad t junk).count.toNat 64) := by
      rw [pad_eq]
      exact counted_written_storeBytes t junk _ h
    rwa [Nat.min_eq_right hcount] at hpad

end store

section independent
variable (t : Table) (junk junk' : Nat → Byte) {c : GenCtx}

/-- A full buffer waits only after 64 counted bytes (R97). -/
theorem count_ge_of_fullPending (h : c.fullPending = true) : 64 ≤ c.count.toNat := by
  simp only [GenCtx.fullPending, Bool.and_eq_true, decide_eq_true_eq] at h
  obtain ⟨hne, hfill : c.count.toNat % 64 = 0⟩ := h
  have : c.count.toNat ≠ 0 := fun h0 => hne (BitVec.eq_of_toNat_eq h0)
  omega

theorem compressBuffer_eq_of_written (h : c.buf.Written 64) : c.compressBuffer t junk = c.compressBuffer t junk' := by
  simp only [GenCtx.compressBuffer, block_eq_of_written junk junk' h]

/-- The byte-store step compresses only where 64 bytes have been counted, hence written (R26 d, R97). -/
theorem storeByte_eq_of_written (b : Byte) (h : c.buf.Written (min c.count.toNat 64)) :
    c.storeByte t junk b = c.storeByte t junk' b := by
  cases hp : c.fullPending with
  | false => simp [GenCtx.storeByte, hp]
  | true =>
    rw [Nat.min_eq_right (count_ge_of_fullPending hp)] at h
    simp only [GenCtx.storeByte, compressBuffer_eq_of_written t junk junk' h]

theorem storeBytes_eq_of_written (bs : List Byte) (h : c.buf.Written (min c.count.toNat 64)) :
    c.storeBytes t junk bs = c.storeBytes t junk' bs := by
  induction bs generalizing c with
  | nil => rfl
  | cons b bs ih =>
    rw [storeBytes_cons, storeBytes_cons, ← storeByte_eq_of_written t junk junk' b h]
    exact ih (counted_written_storeByte t junk b h)

theorem pad_eq_of_written (h : c.buf.Written (min c.count.toNat 64)) : c.pad t junk = c.pad t junk' := by
  rw [pad_eq, pad_eq, storeBytes_eq_of_written t junk junk' _ h]

theorem seal_eq_of_written (h : c.buf.Written 64) : c.seal t junk = c.seal t junk' := by
  simp only [GenCtx.seal, compressBuffer_eq_of_written t junk junk' h]

end independent

/-- Settles O54: every block that is compressed, the last one included, has been written in full. -/
theorem bufferIsReadOnlyWhereWritten : Obligations.BufferIsReadOnlyWhereWritten := by
  intro t junk junk' c data h
  refine ⟨storeBytes_eq_of_written t junk junk' data h, ?_⟩
  rw [← pad_eq_of_written t junk junk' h]
  exact seal_eq_of_written t junk junk' (written_pad t junk h)

end Sys2Proof.Proofs
end

section
/-! SUPPORT. The reset event and the state after reset (R28, R150). -/

namespace Sys2Proof.Proofs
open Sys2Proof.Machine Sys2Proof.Laws

/-- A reset event at the head of the stream, or before the last payload word of a command, is what the block finds
(R150). -/
theorem fetch_of_reset {pre : List Word32} (rest : List HostEvent)
    (h : pre = [] ∨ ∃ w ws, pre = w :: ws ∧ ws.length < payloadWords w) :
    fetch (pre.map HostEvent.word ++ .reset :: rest) = .reset rest := by
  rcases h with rfl | ⟨w, ws, rfl, hlen⟩
  · rfl
  · simp [fetch, takePayload_cutOff ws hlen]

theorem step_of_fetch_reset {s : State} {rest : List HostEvent} (h : fetch s.inp = .reset rest) :
    step s = .next (s.hostReset rest) := by
  simp [step, h]

/-- The registers of every context after reset (R28). -/
theorem registers_of_mem_reset {n : Nat} {c : GenCtx} (h : c ∈ List.replicate n GenCtx.reset) :
    c.count = 0 ∧ c.passes = 3 ∧ c.tiger2 = false ∧ c.finalized = false ∧
      c.st = ⟨0x0123456789ABCDEF, 0xFEDCBA9876543210, 0xF096A5B4C3B2E187⟩ ∧ c.buf = [] ∧ c.dig = [] := by
  obtain rfl := List.eq_of_mem_replicate h
  exact ⟨rfl, rfl, rfl, rfl, rfl, rfl, rfl⟩

/-- Settles O10: the block finds the reset event, and taking it leaves the state after reset. -/
theorem resetEventRestoresRegisters : Obligations.ResetEventRestoresRegisters := by
  intro s pre rest hinp hpre
  have hstep : step s = .next (s.hostReset rest) := step_of_fetch_reset (hinp ▸ fetch_of_reset rest hpre)
  exact ⟨_, hstep, rfl, rfl, rfl, rfl, rfl, hostReset_ngen s rest, rfl, fun _ => registers_of_mem_reset⟩

/-- Settles O11: every context is `GenCtx.reset`, whatever their number. -/
theorem resetStateValues : Obligations.ResetStateValues := by
  intro n
  exact ⟨rfl, rfl, List.length_replicate, rfl, fun _ => registers_of_mem_reset⟩

end Sys2Proof.Proofs
end

section
/-! SUPPORT. The invariants of the block (R26, R130, R156): they hold after reset, and every operation on the state
keeps them. -/

namespace Sys2Proof.Proofs
open Sys2Proof.Machine Sys2Proof.Laws

/-! ## One context -/

theorem ctxReset_inv (valid : Bool) : GenCtx.reset.Inv valid where
  passes_ge := Nat.le_refl 3
  buf_wf := rfl
  dig_wf := rfl
  buf_written := fun _ ha => absurd ha (by simp [GenCtx.reset])
  finalized_valid := nofun
  finalized_fill := nofun
  finalized_dig := nofun

section context
variable {valid : Bool} {c : GenCtx}

/-- Building a table asks nothing more of a context. -/
theorem inv_true_of_inv (h : c.Inv valid) : c.Inv true where
  __ := h
  finalized_valid := fun _ => rfl

/-- A context of a new message counts no byte and is Active (R98, R99). -/
theorem restart_inv (h : c.Inv valid) : c.restart.Inv valid where
  passes_ge := h.passes_ge
  buf_wf := h.buf_wf
  dig_wf := h.dig_wf
  buf_written := fun _ ha => absurd ha (by simp)
  finalized_valid := nofun
  finalized_fill := nofun
  finalized_dig := nofun

/-- The clamp gives R26 (a). -/
theorem withMode_inv (passes : BitVec 8) (tiger2 : Bool) (h : c.restart.Inv valid) :
    GenCtx.Inv valid { c.restart with passes := clampPasses passes, tiger2 := tiger2 } where
  __ := h
  passes_ge := clampPasses_toNat passes ▸ Nat.le_max_left 3 _

/-- Storing bytes in an Active context leaves it Active, with the counted bytes written. -/
theorem storeBytes_inv (t : Table) (junk : Nat → Byte) (bs : List Byte) (h : c.Inv valid)
    (hactive : c.finalized = false) : (c.storeBytes t junk bs).Inv valid where
  passes_ge := by simpa using h.passes_ge
  buf_wf := wf_storeBytes t junk bs h.buf_wf
  dig_wf := by simpa using h.dig_wf
  buf_written := counted_written_storeBytes t junk bs h.buf_written
  finalized_valid := by simp [hactive]
  finalized_fill := by simp [hactive]
  finalized_dig := by simp [hactive]

theorem seal_fill (t : Table) (junk : Nat → Byte) (c : GenCtx) : (c.seal t junk).fill = c.fill := by
  rw [GenCtx.fill, seal_count, GenCtx.fill]

/-- Sealing caches the digest of the state that it leaves (R102, R116). -/
theorem serialised_seal (t : Table) (junk : Nat → Byte) (c : GenCtx) :
    Serialised (c.seal t junk).dig (c.seal t junk).st := by
  intro k j hk hj
  rw [seal_dig]
  exact lookup_serialise _ _ hk hj

/-- `FINALIZE` of an Active context with a table leaves a Finalized one as R26 asks. -/
theorem seal_pad_inv (t : Table) (junk : Nat → Byte) (h : c.Inv valid) (hvalid : valid = true) :
    ((c.pad t junk).seal t junk).Inv valid where
  passes_ge := by simpa using h.passes_ge
  buf_wf := by
    rw [seal_buf, pad_eq]
    exact wf_storeBytes t junk _ h.buf_wf
  dig_wf := by
    rw [seal_dig, pad_dig]
    exact wf_serialise _ h.dig_wf
  buf_written := fun a ha => by
    rw [seal_buf]
    exact written_pad t junk h.buf_written a (lt_of_lt_of_le ha (Nat.min_le_right _ _))
  finalized_valid := fun _ => hvalid
  finalized_fill := fun _ => by rw [seal_fill, pad_fill]
  finalized_dig := fun _ => serialised_seal t junk _

/-- Every command that replaces a context's registers keeps their invariants. -/
theorem ctxChange_inv {s : State} {g : CtxNum} {i : Instr} {c' : GenCtx} (h : c.Inv s.sboxValid)
    (hchange : CtxChange s g c i c') : c'.Inv s.sboxValid := by
  cases hchange with
  | genNew passes tiger2 => exact withMode_inv passes tiger2 (restart_inv h)
  | genReset => exact restart_inv h
  | updateByte byte _ hactive => exact storeBytes_inv _ _ _ h hactive
  | update data _ hactive => exact storeBytes_inv _ _ _ h hactive
  | finalize hvalid _ => exact seal_pad_inv _ _ h hvalid

end context

/-! ## The block -/

/-- The reset values meet the invariants, whatever the two streams and the draw number hold (R28). -/
theorem inv_of_reset_values {s : State} {n : Nat} (htbl : s.tbl = []) (hvalid : s.sboxValid = false)
    (hfault : s.fault = 0) (hctxs : s.ctxs = List.replicate n GenCtx.reset) (hn : 1 ≤ n ∧ n ≤ 16) : s.Inv where
  ngen_bounds := by simpa [State.ngen, hctxs] using hn
  fault_le := by simp [hfault]
  tbl_wf := by simp [htbl]
  tbl_written := by simp [hvalid]
  ctxs_inv := fun c hc => by
    rw [hctxs] at hc
    obtain rfl := List.eq_of_mem_replicate hc
    exact ctxReset_inv _

theorem resetWith_inv {n : Nat} (hn : 1 ≤ n ∧ n ≤ 16) : (State.resetWith n).Inv :=
  inv_of_reset_values rfl rfl rfl rfl hn

section block
variable {s : State}

theorem withInp_inv (rest : List HostEvent) (h : s.Inv) : State.Inv { s with inp := rest } where
  __ := h

theorem respond_inv (data : List Word32) (h : s.Inv) : (s.respond data).Inv where
  __ := h

/-- `FAULT` takes a code of R130, or keeps one. -/
theorem raise_inv (e : ErrCode) (h : s.Inv) : (s.raise e).Inv where
  __ := h
  fault_le := by
    rw [raise_fault]
    split
    · exact code_le e
    · exact h.fault_le

theorem hostReset_inv (rest : List HostEvent) (h : s.Inv) : (s.hostReset rest).Inv :=
  inv_of_reset_values rfl rfl rfl rfl h.ngen_bounds

/-- A table that is built is written in full (R156). -/
theorem buildTable_inv (t : Table) (h : s.Inv) : (s.buildTable t).Inv where
  ngen_bounds := h.ngen_bounds
  fault_le := h.fault_le
  tbl_wf := wf_toMemory t
  tbl_written := fun _ a ha => by simp [lookup_toMemory, ha]
  ctxs_inv := fun c hc => inv_true_of_inv (h.ctxs_inv c hc)

theorem setCtx_inv (g : CtxNum) {c : GenCtx} (h : s.Inv) (hc : c.Inv s.sboxValid) : (s.setCtx g c).Inv where
  ngen_bounds := by simpa using h.ngen_bounds
  fault_le := h.fault_le
  tbl_wf := h.tbl_wf
  tbl_written := h.tbl_written
  ctxs_inv := fun d hd => by
    rcases List.mem_or_eq_of_mem_set hd with hd | rfl
    · exact h.ctxs_inv d hd
    · exact hc

/-- Every command keeps the invariants. -/
theorem exec_inv {i : Instr} {t : State} (h : s.Inv) (ht : exec i s = .next t) : t.Inv := by
  cases exec_effect ht with
  | refused e => exact raise_inv e h
  | answered data => exact respond_inv data h
  | built tab => exact buildTable_inv tab h
  | replaced data hc hchange =>
    exact respond_inv data (setCtx_inv _ h (ctxChange_inv (h.ctxs_inv _ (ctx?_mem hc)) hchange))

end block

/-- Settles O49: the state after reset meets the invariants, for each allowed number of contexts. -/
theorem invariantsHoldAtReset : Obligations.InvariantsHoldAtReset :=
  ⟨resetWith_inv (by decide), fun _ h1 h16 => resetWith_inv ⟨h1, h16⟩⟩

/-- Settles O50: waiting, the reset event, a refused word and every command keep the invariants. -/
theorem stepKeepsInvariants : Obligations.StepKeepsInvariants := by
  intro s t h ht
  rcases step_cases s with ⟨_, hs⟩ | ⟨rest, _, hs⟩ | ⟨_, _, rest, _, _, _, hs⟩ | ⟨_, _, rest, i, _, _, hs⟩ <;>
    rw [hs] at ht
  · obtain rfl := Host.Outcome.next.inj ht
    exact h
  · obtain rfl := Host.Outcome.next.inj ht
    exact hostReset_inv rest h
  · obtain rfl := Host.Outcome.next.inj ht
    exact raise_inv _ (withInp_inv rest h)
  · exact exec_inv (withInp_inv rest h) ht

end Sys2Proof.Proofs
end

section
/-! SUPPORT. The command stream (R38, R45, R47): the words of a well-formed command are found at the head of the stream,
decode to it, and are what a step executes. -/

namespace Sys2Proof.Proofs
open Sys2Proof.Machine Sys2Proof.Laws

/-- Every command word announces exactly its payload (R47). -/
theorem selfDelimiting (i : Instr) : SelfDelimiting.Statement i := by
  cases i with
  | sboxInitDefault => exact SelfDelimiting.sboxInitDefault
  | sboxInit passes seed => exact SelfDelimiting.sboxInit passes seed
  | genNew g passes tiger2 => exact SelfDelimiting.genNew g passes tiger2
  | genReset g => exact SelfDelimiting.genReset g
  | updateByte g byte => exact SelfDelimiting.updateByte g byte
  | update g data => exact SelfDelimiting.update g data
  | finalize g => exact SelfDelimiting.finalize g
  | digestRead g idx => exact SelfDelimiting.digestRead g idx
  | status g => exact SelfDelimiting.status g

/-- A well-formed command's announced payload, unpacked from its payload words (R47, R48). -/
theorem unpackBytes_payload {i : Instr} (hwf : WellFormed i = true) :
    unpackBytes (payloadBytes (encodeHead i)) (packBytes i.payload) = i.payload := by
  obtain ⟨hbytes, _⟩ := selfDelimiting i hwf
  rw [hbytes, unpackBytes_packBytes]

/-- A bit inside `arg` is the same bit of the command word (R46). -/
theorem getLsbD_commandWord (op : BitVec 4) (ctx : CtxNum) (arg : BitVec 24) {k : Nat} (hk : k < 24) :
    (commandWord op ctx arg).getLsbD k = arg.getLsbD k := by
  rw [commandWord, BitVec.getLsbD_append, if_pos hk]

/-- The bits of the `arg` field of `GEN_NEW` above the pass count: the mode, then zeros (R56). -/
theorem getLsbD_modeAndPasses (passes : BitVec 8) (tiger2 : Bool) (k : Nat) :
    ((0#15 ++ BitVec.ofBool tiger2) ++ passes).getLsbD (8 + k) = (decide (k = 0) && tiger2) := by
  rw [BitVec.getLsbD_append, BitVec.getLsbD_append]
  simp

/-- The words of a well-formed command decode to it (R45 to R48, R53 to R62). -/
theorem decode_encodeHead {i : Instr} (hwf : WellFormed i = true) :
    decode (encodeHead i) (packBytes i.payload) = .command i := by
  have hpayload := unpackBytes_payload hwf
  cases i with
  | sboxInitDefault => rfl
  | sboxInit passes seed =>
    have hpasses : (BitVec.ofNat 16 seed.length ++ passes).extractLsb' 0 8 = passes := extract_append_low _ _
    simp only [encodeHead, Instr.payload] at hpayload ⊢
    simp only [decode, opOf_commandWord, ctxOf_commandWord, hpayload]
    simp [extract_commandWord, hpasses]
  | genNew g passes tiger2 =>
    have hpasses : ((0#15 ++ BitVec.ofBool tiger2) ++ passes).extractLsb' 0 8 = passes := extract_append_low _ _
    have hzero : ((0#15 ++ BitVec.ofBool tiger2) ++ passes).extractLsb' 9 15 = 0 := by
      apply BitVec.eq_of_getLsbD_eq
      intro j hj
      rw [BitVec.getLsbD_extractLsb', show 9 + j = 8 + (j + 1) by omega, getLsbD_modeAndPasses]
      simp
    have hmode : (commandWord 0x3#4 g ((0#15 ++ BitVec.ofBool tiger2) ++ passes))[8] = tiger2 := by
      rw [← BitVec.getLsbD_eq_getElem, getLsbD_commandWord _ _ _ (by decide), getLsbD_modeAndPasses passes tiger2 0]
      simp
    simp [decode, encodeHead, extract_commandWord, hpasses, hzero, hmode]
  | genReset g => simp [decode, encodeHead]
  | updateByte g byte =>
    have hbyte : (0#16 ++ byte).extractLsb' 0 8 = byte := extract_append_low _ _
    have hzero : (0#16 ++ byte).extractLsb' 8 16 = 0 := extract_append_high _ _
    simp [decode, encodeHead, extract_commandWord, hbyte, hzero]
  | update g data =>
    simp only [encodeHead, Instr.payload] at hpayload ⊢
    simp [decode, hpayload]
  | finalize g => simp [decode, encodeHead]
  | digestRead g idx =>
    have hidx : (0#19 ++ idx).extractLsb' 0 5 = idx := extract_append_low _ _
    have hzero : (0#19 ++ idx).extractLsb' 5 19 = 0 := extract_append_high _ _
    have hlt : ¬ 24 ≤ idx.toNat := by simpa [WellFormed] using hwf
    simp [decode, encodeHead, extract_commandWord, hidx, hzero, hlt]
  | status g => simp [decode, encodeHead]

/-- The words of a well-formed command at the head of the stream are what the block finds there (R45, R47). -/
theorem fetch_encode {i : Instr} (hwf : WellFormed i = true) (rest : List HostEvent) :
    fetch ((encode i).map HostEvent.word ++ rest) = .command (encodeHead i) (packBytes i.payload) rest := by
  obtain ⟨_, hlen⟩ := selfDelimiting i hwf
  simp only [encode, List.map_cons, List.cons_append, fetch, ← hlen, takePayload_complete, List.reverse_nil,
    List.nil_append]

/-- Settles O5: what the block finds and what it decodes to select the branch of `step` that executes the command. -/
theorem stepExecutesDecodedCommand : Obligations.StepExecutesDecodedCommand := by
  intro s head payload rest i hfetch hdecode
  simp [step, hfetch, hdecode]

/-- Settles O6: the block finds the words of the command, and they decode to it. -/
theorem stepExecutesEncodedCommand : Obligations.StepExecutesEncodedCommand := by
  intro s i rest hwf hinp
  exact stepExecutesDecodedCommand s _ _ rest i (hinp ▸ fetch_encode hwf rest) (decode_encodeHead hwf)

end Sys2Proof.Proofs
end

section
/-! SUPPORT. Words and their bytes (R6, R31): a word is determined by its eight bytes, and an 8-byte access is eight
accesses of one byte. -/

namespace Sys2Proof.Proofs
open Sys2Proof.Machine Sys2Proof.Laws

/-- A word is determined by its eight bytes (R6). -/
theorem word_ext {v w : Word} (h : ∀ j < 8, byteOf v j = byteOf w j) : v = w := by
  apply BitVec.eq_of_getLsbD_eq
  intro i hi
  have hbit := congrArg (·.getLsbD (i % 8)) (h (i / 8) (by omega))
  simpa [byteOf, Nat.mod_lt, Nat.div_add_mod] using hbit

/-- Byte `j` of an 8-byte read is the byte read at address `a + j` (R31). -/
theorem byteOf_read8 (junk : Nat → Byte) (m : Memory) (a : Nat) {j : Nat} (hj : j < 8) :
    byteOf (m.read8 junk a) j = m.read junk (a + j) :=
  byteOf_wordFromBytes _ hj

/-- What every address is read as after an 8-byte write (R31). -/
theorem read_write8 (junk : Nat → Byte) (m : Memory) (a x : Nat) (w : Word) :
    (m.write8 a w).read junk x = if a ≤ x ∧ x < a + 8 then byteOf w (x - a) else m.read junk x := by
  simp only [Memory.read, lookup_write8]
  split <;> rfl

/-- Settles O30: the eight addresses hold the word's bytes, which determine it, and no other address is written. -/
theorem wordAccessIsLittleEndian : Obligations.WordAccessIsLittleEndian := by
  intro junk m a w
  have hbyte : ∀ j < 8, (m.write8 a w).read junk (a + j) = byteOf w j := fun j hj => by
    rw [read_write8, if_pos (by omega), Nat.add_sub_cancel_left]
  refine ⟨word_ext fun j hj => ?_, hbyte, fun x hx => ?_⟩
  · rw [byteOf_read8 junk _ a hj, hbyte j hj]
  · rw [read_write8, if_neg (by omega)]

end Sys2Proof.Proofs
end

section
/-! SUPPORT. The two views of the table (R31, R32, log 5): the words of the working table and the bytes of `TBL`. -/

namespace Sys2Proof.Proofs
open Sys2Proof.Machine Sys2Proof.Laws

/-- Bit `i` of digit `v` of the number that has the words as its digits. -/
theorem testBit_wordsToNat (ws : List Word) (v : Nat) {i : Nat} (hi : i < 64) :
    (wordsToNat ws).testBit (64 * v + i) = ((ws[v]?).getD 0).getLsbD i := by
  induction ws generalizing v with
  | nil => simp [wordsToNat]
  | cons w ws ih =>
    rw [wordsToNat, Nat.add_comm, Nat.testBit_two_pow_mul_add _ w.isLt]
    cases v with
    | zero => simp [hi, BitVec.getLsbD]
    | succ v =>
      rw [if_neg (by omega), show 64 * (v + 1) + i - 64 = 64 * v + i by omega, ih, List.getElem?_cons_succ]

/-- A sub-table built from words has them as its words (R32). -/
theorem word_ofWords (ws : List Word) {v : Nat} (hv : v < 256) : (SubTable.ofWords ws).word v = (ws[v]?).getD 0 := by
  apply BitVec.eq_of_getLsbD_eq
  intro i hi
  rw [← testBit_wordsToNat ws v hi, SubTable.word, SubTable.ofWords, BitVec.getLsbD_extractLsb', BitVec.getLsbD_ofNat]
  simp [hi, show 64 * v + i < 16384 by omega]

/-- Taking consecutive bytes eight at a time gives the little-endian words at every eighth address (R31). -/
theorem wordsOfBytes_map_range' (f : Nat → Byte) (a n : Nat) :
    wordsOfBytes ((List.range' a (8 * n)).map f) =
      (List.range n).map fun v => wordFromBytes fun j => f (a + 8 * v + j) := by
  induction n generalizing a with
  | zero => rfl
  | succ n ih =>
    rw [List.range_succ_eq_map]
    simp only [Nat.mul_succ, List.range'_succ, List.map_cons, wordsOfBytes, List.map_map]
    rw [ih]
    refine congrArg₂ _ rfl (List.map_congr_left fun v _ => ?_)
    have haddr : ∀ j, a + 8 + 8 * v + j = a + 8 * (v + 1) + j := fun j => by omega
    simp only [Function.comp_apply, Nat.succ_eq_add_one, ← haddr]

/-- Word `v` of sub-table `i` is the 8-byte read at its address in `TBL` (R31, R32). -/
theorem subTable_word {size : Nat} {m : Memory} (junk : Nat → Byte) (h : m.wf size = true) (i : Nat) {v : Nat}
    (hv : v < 256) : (m.subTable junk i).word v = m.read8 junk (2048 * i + 8 * v) := by
  obtain ⟨hwf, hlookup⟩ := dropWhile_spec (lo' := 2048 * i) h
  have hread : ∀ j, Memory.read junk (m.dropWhile fun c => decide (c.1 < 2048 * i)) (2048 * i + 8 * v + j) =
      m.read junk (2048 * i + 8 * v + j) := fun j => by
    rw [Memory.read, hlookup _ (by omega), Memory.read]
  rw [Memory.subTable, dump_eq_map_read junk hwf, word_ofWords _ hv, wordsOfBytes_map_range' _ _ 256]
  simp [hv, hread, Memory.read8]

/-- Sub-table `k` of the table read from `TBL` (R16, R32). -/
theorem sub_table (junk : Nat → Byte) (m : Memory) {k : Nat} (hk : k < 4) :
    (m.table junk).sub k = m.subTable junk k := by
  interval_cases k <;> rfl

/-- Settles O28: index `i` is word `i mod 256` of sub-table `i div 256`, which lies at address `8*i`. -/
theorem tableWordIsEightBytes : Obligations.TableWordIsEightBytes := by
  intro junk m i h hi
  rw [Table.word, sub_table junk m (by omega), subTable_word junk h _ (Nat.mod_lt _ (by omega))]
  congr 1
  omega

/-- A sub-table is determined by its 256 words (R16). -/
theorem subTable_ext {u u' : SubTable} (h : ∀ v < 256, u.word v = u'.word v) : u = u' := by
  apply BitVec.eq_of_getLsbD_eq
  intro i hi
  have hbit := congrArg (·.getLsbD (i % 64)) (h (i / 64) (by omega))
  simpa [SubTable.word, Nat.mod_lt, Nat.div_add_mod] using hbit

/-- A table is determined by its 1024 words (R16). -/
theorem table_ext {t t' : Table} (h : ∀ i < 1024, t.word i = t'.word i) : t = t' := by
  have hsub : ∀ k < 4, t.sub k = t'.sub k := fun k hk => subTable_ext fun v hv => by
    have hword := h (256 * k + v) (by omega)
    rwa [Table.word, Table.word, show (256 * k + v) / 256 = k by omega, show (256 * k + v) % 256 = v by omega] at hword
  obtain ⟨t0, t1, t2, t3⟩ := t
  obtain ⟨u0, u1, u2, u3⟩ := t'
  rw [Table.mk.injEq]
  exact ⟨hsub 0 (by decide), hsub 1 (by decide), hsub 2 (by decide), hsub 3 (by decide)⟩

/-- Byte `j` of word `i` of the table is its byte at address `8*i + j` (R32). -/
theorem byteOf_tableWord (t : Table) (i : Nat) {j : Nat} (hj : j < 8) : byteOf (t.word i) j = t.byte (8 * i + j) := by
  rw [Table.word, byteOf_word _ _ hj, ← table_byte t (Nat.mod_lt i (by omega)) hj, Nat.div_add_mod]

/-- Settles O29: each word is read from the eight bytes that were written of it. -/
theorem writtenTableIsReadBack : Obligations.WrittenTableIsReadBack := by
  intro junk t
  refine table_ext fun i hi => word_ext fun j hj => ?_
  rw [tableWordIsEightBytes junk _ i (wf_toMemory t) hi, byteOf_read8 junk _ _ hj, byteOf_tableWord t i hj,
    Memory.read, lookup_toMemory, if_pos (by omega), Option.getD_some]

end Sys2Proof.Proofs
end

section
/-! SUPPORT. A command and the contexts it does not name (R43, R113, R161): they are left alone, and they have no
influence. -/

namespace Sys2Proof.Proofs
open Sys2Proof.Machine Sys2Proof.Laws

theorem ctxChange_ctx? {s : State} {g : CtxNum} {c c' : GenCtx} {i : Instr} (h : CtxChange s g c i c') :
    i.ctx? = some g := by
  cases h <;> rfl

/-- Settles O44: only the SBox commands, which name no context, build the table, and registers are replaced only of
the context that the command names. -/
theorem commandsTouchOnlyTheirContext : Obligations.CommandsTouchOnlyTheirContext := by
  intro i s t h
  cases exec_effect h with
  | refused e => exact ⟨fun _ _ _ _ => rfl, fun _ _ => ⟨rfl, rfl⟩, fun _ => rfl, rfl, rfl⟩
  | answered data => exact ⟨fun _ _ _ _ => rfl, fun _ _ => ⟨rfl, rfl⟩, fun _ => rfl, rfl, rfl⟩
  | built tab hi =>
    have hnone : i.ctx? = none := by rcases hi with rfl | ⟨_, _, rfl⟩ <;> rfl
    exact ⟨fun _ _ _ _ => rfl, by simp [hnone], fun _ => rfl, rfl, rfl⟩
  | replaced data hc hchange =>
    have hsome := ctxChange_ctx? hchange
    refine ⟨fun g h hg hne => ?_, fun _ _ => ⟨rfl, rfl⟩, by simp [hsome], rfl, rfl⟩
    obtain rfl := Option.some.inj (hsome.symm.trans hg)
    rw [respond_ctx?, ctx?_setCtx_other hne]

/-- From `s` to `t` and from `s'` to `t'` the block answers the same words, and it leaves the same registers of
context `g` and the same `FAULT`. -/
def AnsweredAlike (g : CtxNum) (s s' t t' : State) : Prop :=
  t.ctx? g = t'.ctx? g ∧ t.fault = t'.fault ∧ ∃ r, t.out = s.out ++ r ∧ t'.out = s'.out ++ r

section alike
variable {g : CtxNum} {s s' : State} (h : SameForCtx g s s')
include h

theorem ctx?_alike : s.ctx? g = s'.ctx? g := by
  obtain ⟨_, _, _, hctx, _⟩ := h
  exact hctx

theorem sboxValid_alike : s.sboxValid = s'.sboxValid := by
  obtain ⟨_, hvalid, _, _, _⟩ := h
  exact hvalid

theorem table_alike : s.table = s'.table := by
  obtain ⟨htbl, _, _, _, hepoch⟩ := h
  rw [State.table, State.table, State.tblJunk, State.tblJunk, htbl, hepoch]

theorem bufJunk_alike : s.bufJunk g = s'.bufJunk g := by
  obtain ⟨_, _, _, _, hepoch⟩ := h
  rw [State.bufJunk, State.bufJunk, hepoch]

theorem digJunk_alike : s.digJunk g = s'.digJunk g := by
  obtain ⟨_, _, _, _, hepoch⟩ := h
  rw [State.digJunk, State.digJunk, hepoch]

theorem statusImage_alike (c : GenCtx) : statusImage s c = statusImage s' c := by
  obtain ⟨_, hvalid, hfault, _, _⟩ := h
  rw [statusImage, statusImage, hvalid, hfault]

theorem raise_alike (e : ErrCode) : AnsweredAlike g s s' (s.raise e) (s'.raise e) := by
  obtain ⟨_, _, hfault, hctx, _⟩ := h
  exact ⟨hctx, by rw [raise_fault, raise_fault, hfault], _, rfl, rfl⟩

theorem respond_alike (data : List Word32) : AnsweredAlike g s s' (s.respond data) (s'.respond data) := by
  obtain ⟨_, _, hfault, hctx, _⟩ := h
  exact ⟨hctx, hfault, _, rfl, rfl⟩

theorem setCtx_alike {c : GenCtx} (hc : s.ctx? g = some c) (c' : GenCtx) (data : List Word32) :
    AnsweredAlike g s s' ((s.setCtx g c').respond data) ((s'.setCtx g c').respond data) := by
  obtain ⟨_, _, hfault, hctx, _⟩ := h
  refine ⟨?_, hfault, _, rfl, rfl⟩
  rw [respond_ctx?, respond_ctx?, ctx?_setCtx_same hc, ctx?_setCtx_same (hctx ▸ hc)]

/-- Selecting context `g` finds the same registers in both states. -/
theorem onCtx_alike {f f' : GenCtx → State} (hf : ∀ c, s.ctx? g = some c → AnsweredAlike g s s' (f c) (f' c)) :
    AnsweredAlike g s s' (s.onCtx g f) (s'.onCtx g f') := by
  have hctx := ctx?_alike h
  rcases onCtx_cases s g f with ⟨hnone, hs⟩ | ⟨c, hc, hs⟩ <;> rw [hs]
  · rw [onCtx_none (hctx ▸ hnone)]
    exact raise_alike h _
  · rw [onCtx_some (hctx ▸ hc)]
    exact hf c hc

theorem acceptBytes_alike (data : List Byte) :
    AnsweredAlike g s s' (s.acceptBytes g data) (s'.acceptBytes g data) := by
  refine onCtx_alike h fun c hc => ?_
  rw [table_alike h, bufJunk_alike h, sboxValid_alike h]
  split
  · exact raise_alike h _
  · split
    · exact raise_alike h _
    · exact setCtx_alike h hc _ _

/-- A command of context `g` reads nothing that the two states differ in. -/
theorem exec_alike {i : Instr} {t t' : State} (hi : i.ctx? = some g) (ht : exec i s = .next t)
    (ht' : exec i s' = .next t') : AnsweredAlike g s s' t t' := by
  cases i <;> obtain rfl := Host.Outcome.next.inj ht <;> obtain rfl := Host.Outcome.next.inj ht' <;>
    cases hi
  case genNew => exact onCtx_alike h fun c hc => setCtx_alike h hc _ _
  case genReset => exact onCtx_alike h fun c hc => setCtx_alike h hc _ _
  case updateByte byte => exact acceptBytes_alike h [byte]
  case update data => exact acceptBytes_alike h data
  case finalize =>
    refine onCtx_alike h fun c hc => ?_
    rw [table_alike h, bufJunk_alike h, digJunk_alike h, sboxValid_alike h]
    split
    · exact raise_alike h _
    · split
      · exact respond_alike h _
      · exact setCtx_alike h hc _ _
  case digestRead idx =>
    rw [digJunk_alike h]
    split
    · exact raise_alike h _
    · refine onCtx_alike h fun c _ => ?_
      split
      · exact respond_alike h _
      · exact raise_alike h _
  case status => exact onCtx_alike h fun c _ => statusImage_alike h c ▸ respond_alike h _

end alike

/-- Settles O45: selecting the context, the checks and the values stored and answered are the same in both states. -/
theorem otherContextsDoNotInfluence : Obligations.OtherContextsDoNotInfluence := by
  intro i g s s' t t' hi h ht ht'
  exact exec_alike h hi ht ht'

end Sys2Proof.Proofs
end

section
/-! SUPPORT. The canonical form of the address spaces (R30, R35, log 2) under a step. -/

namespace Sys2Proof.Proofs
open Sys2Proof.Machine Sys2Proof.Laws

/-- `BUF` and `DIG` of a context are in canonical form. -/
def GenCtxCanonical (c : GenCtx) : Prop := c.buf.wf 64 = true ∧ c.dig.wf 24 = true

theorem storeBytes_canonical (t : Table) (junk : Nat → Byte) {c : GenCtx} (bs : List Byte) (h : GenCtxCanonical c) :
    GenCtxCanonical (c.storeBytes t junk bs) := by
  obtain ⟨hbuf, hdig⟩ := h
  exact ⟨wf_storeBytes t junk bs hbuf, by rwa [storeBytes_dig]⟩

theorem seal_canonical (t : Table) (junk : Nat → Byte) {c : GenCtx} (h : GenCtxCanonical c) :
    GenCtxCanonical (c.seal t junk) := by
  obtain ⟨hbuf, hdig⟩ := h
  exact ⟨hbuf, by rw [seal_dig]; exact wf_serialise _ hdig⟩

/-- A restart keeps `BUF` and `DIG`, and the other commands write them in range. -/
theorem ctxChange_canonical {s : State} {g : CtxNum} {c c' : GenCtx} {i : Instr} (h : GenCtxCanonical c)
    (hchange : CtxChange s g c i c') : GenCtxCanonical c' := by
  cases hchange with
  | genNew _ _ => exact h
  | genReset => exact h
  | updateByte byte _ _ => exact storeBytes_canonical _ _ _ h
  | update data _ _ => exact storeBytes_canonical _ _ _ h
  | finalize _ _ =>
    rw [pad_eq]
    exact seal_canonical _ _ (storeBytes_canonical _ _ _ h)

theorem exec_canonical {i : Instr} {s t : State} (h : s.Canonical) (ht : exec i s = .next t) : t.Canonical := by
  obtain ⟨htbl, hctxs⟩ := h
  cases exec_effect ht with
  | refused e => exact ⟨htbl, hctxs⟩
  | answered data => exact ⟨htbl, hctxs⟩
  | built tab => exact ⟨wf_toMemory tab, hctxs⟩
  | replaced data hc hchange =>
    refine ⟨htbl, fun d hd => ?_⟩
    rcases List.mem_or_eq_of_mem_set hd with hd | rfl
    · exact hctxs d hd
    · exact ctxChange_canonical (hctxs _ (ctx?_mem hc)) hchange

theorem hostReset_canonical (s : State) (rest : List HostEvent) : (s.hostReset rest).Canonical where
  tbl_wf := rfl
  ctxs_wf := fun c hc => by
    obtain rfl := List.eq_of_mem_replicate hc
    exact ⟨rfl, rfl⟩

/-- Settles O51: a step leaves the address spaces alone, empties them, or executes a command, whose writes are in
range. -/
theorem stepKeepsCanonicalMemory : Obligations.StepKeepsCanonicalMemory := by
  intro s t h ht
  obtain ⟨htbl, hctxs⟩ := h
  rcases step_cases s with ⟨_, hs⟩ | ⟨rest, _, hs⟩ | ⟨_, _, rest, _, _, _, hs⟩ | ⟨_, _, rest, i, _, _, hs⟩ <;>
    rw [hs] at ht
  · obtain rfl := Host.Outcome.next.inj ht
    exact ⟨htbl, hctxs⟩
  · obtain rfl := Host.Outcome.next.inj ht
    exact hostReset_canonical s rest
  · obtain rfl := Host.Outcome.next.inj ht
    exact ⟨htbl, hctxs⟩
  · exact exec_canonical (s := { s with inp := rest }) ⟨htbl, hctxs⟩ ht

end Sys2Proof.Proofs
end

section
/-! SUPPORT. The encoding (spec file 30): the fields of a command word, the condition of each row on them, and that
decoding follows those rows and is undone by encoding. -/

namespace Sys2Proof.Proofs
open Sys2Proof.Machine Sys2Proof.Laws

/-- Settles O1: the command word announces the payload words of the encoding, and the two decode to it. -/
theorem decodeOfEncodeIsIdentity : Obligations.DecodeOfEncodeIsIdentity := by
  intro i hwf
  obtain ⟨_, hlen⟩ := selfDelimiting i hwf
  exact ⟨encodeHead i, packBytes i.payload, rfl, hlen, decode_encodeHead hwf⟩

/-- Settles O4: each word and its payload are literals, which the decoder evaluates. -/
theorem specExampleWordsDecode : Obligations.SpecExampleWordsDecode := by
  refine ⟨?_, ?_, ?_, ?_, ?_, ?_, ?_, ?_, ?_⟩ <;> decide

/-! ## The fields of a word -/

/-- A word is its three fields (R46). -/
theorem commandWord_fields (w : Word32) : commandWord (opOf w) (ctxOf w) (argOf w) = w := by
  have hhigh : opOf w ++ ctxOf w = w.extractLsb' 24 8 := BitVec.extractLsb'_append_extractLsb'_eq_extractLsb' rfl
  calc commandWord (opOf w) (ctxOf w) (argOf w) = w.extractLsb' 24 8 ++ w.extractLsb' 0 24 := by
        rw [commandWord, hhigh, argOf]
    _ = w.extractLsb' 0 32 := BitVec.extractLsb'_append_extractLsb'_eq_extractLsb' rfl
    _ = w := BitVec.extractLsb'_eq_self

/-- A word is the command word of its fields' values (R46). -/
theorem commandWord_eq_of_fields {w : Word32} {op : BitVec 4} {g : CtxNum} {arg : BitVec 24} (hop : opOf w = op)
    (hctx : ctxOf w = g) (harg : arg = argOf w) : commandWord op g arg = w := by
  rw [← hop, ← hctx, harg, commandWord_fields]

/-- Two words are equal exactly when their fields are (R46). -/
theorem word_eq_iff_fields (v w : Word32) : v = w ↔ opOf v = opOf w ∧ ctxOf v = ctxOf w ∧ argOf v = argOf w := by
  constructor
  · rintro rfl
    exact ⟨rfl, rfl, rfl⟩
  · rintro ⟨hop, hctx, harg⟩
    rw [← commandWord_fields v, commandWord_eq_of_fields hop.symm hctx.symm harg]

/-- A field of `arg` is that field of the word (R46). -/
theorem extract_argOf (w : Word32) {lo n : Nat} (h : lo + n ≤ 24) :
    (argOf w).extractLsb' lo n = w.extractLsb' lo n :=
  BitVec.extractLsb'_extractLsb'_of_le h

/-- A field of one bit is that bit. -/
theorem extract_one_eq_ofBool {n : Nat} (w : BitVec n) (k : Nat) :
    w.extractLsb' k 1 = BitVec.ofBool (w.getLsbD k) := by
  apply BitVec.eq_of_getLsbD_eq
  intro j hj
  obtain rfl : j = 0 := by omega
  simp

/-! ## The rows of the opcode table -/

/-- The command word and payload have the fields that the row of the command asks for (R54 to R62). -/
def RowFields (w : Word32) (p : List Word32) : Instr → Prop
  | .sboxInitDefault => opOf w = 0x1#4 ∧ ctxOf w = 0 ∧ argOf w = 0
  | .sboxInit passes seed =>
    opOf w = 0x2#4 ∧ ctxOf w = 0 ∧ passes = w.extractLsb' 0 8 ∧ seed = unpackBytes (payloadBytes w) p
  | .genNew g passes tiger2 =>
    opOf w = 0x3#4 ∧ w.extractLsb' 9 15 = 0 ∧ g = ctxOf w ∧ passes = w.extractLsb' 0 8 ∧ tiger2 = w.getLsbD 8
  | .genReset g => opOf w = 0x4#4 ∧ argOf w = 0 ∧ g = ctxOf w
  | .updateByte g byte => opOf w = 0x5#4 ∧ w.extractLsb' 8 16 = 0 ∧ g = ctxOf w ∧ byte = w.extractLsb' 0 8
  | .update g data => opOf w = 0x6#4 ∧ g = ctxOf w ∧ data = unpackBytes (payloadBytes w) p
  | .finalize g => opOf w = 0x7#4 ∧ argOf w = 0 ∧ g = ctxOf w
  | .digestRead g idx =>
    opOf w = 0x8#4 ∧ w.extractLsb' 5 19 = 0 ∧ g = ctxOf w ∧ idx = w.extractLsb' 0 5 ∧ (w.extractLsb' 0 5).toNat < 24
  | .status g => opOf w = 0x9#4 ∧ argOf w = 0 ∧ g = ctxOf w

/-- What a word must be like to be decoded so: a command's fields are those of its row (R53), and an illegal word falls
under a clause of R63 in every block. -/
def DecodedAsSpecified (w : Word32) (p : List Word32) : Decoded → Prop
  | .command i => RowFields w p i
  | .illegal _ => ∀ ngen, IllegalFor ngen w

/-! The clauses of R63, as `decode` finds them. -/

section illegal
variable {w : Word32}

theorem illegalFor_of_ctx (hop : opOf w = 0x1 ∨ opOf w = 0x2) (hctx : ctxOf w ≠ 0) (ngen : Nat) :
    IllegalFor ngen w := .inr (.inl ⟨hop, hctx⟩)

theorem illegalFor_of_arg (hop : opOf w = 0x1 ∨ opOf w = 0x4 ∨ opOf w = 0x7 ∨ opOf w = 0x9) (harg : argOf w ≠ 0)
    (ngen : Nat) : IllegalFor ngen w := .inr (.inr (.inr (.inl ⟨hop, harg⟩)))

theorem illegalFor_of_genNew_bits (hop : opOf w = 0x3) (hbits : w.extractLsb' 9 15 ≠ 0) (ngen : Nat) :
    IllegalFor ngen w := by
  rw [← extract_argOf w (by decide)] at hbits
  exact .inr (.inr (.inr (.inr (.inl ⟨hop, hbits⟩))))

theorem illegalFor_of_updateByte_bits (hop : opOf w = 0x5) (hbits : w.extractLsb' 8 16 ≠ 0) (ngen : Nat) :
    IllegalFor ngen w := by
  rw [← extract_argOf w (by decide)] at hbits
  exact .inr (.inr (.inr (.inr (.inr (.inl ⟨hop, hbits⟩)))))

theorem illegalFor_of_digestRead_bits (hop : opOf w = 0x8) (hbits : w.extractLsb' 5 19 ≠ 0) (ngen : Nat) :
    IllegalFor ngen w := by
  rw [← extract_argOf w (by decide)] at hbits
  exact .inr (.inr (.inr (.inr (.inr (.inr (.inl ⟨hop, hbits⟩))))))

theorem illegalFor_of_digestRead_index (hop : opOf w = 0x8) (hidx : 24 ≤ (w.extractLsb' 0 5).toNat) (ngen : Nat) :
    IllegalFor ngen w := by
  rw [← extract_argOf w (by decide)] at hidx
  exact .inr (.inr (.inr (.inr (.inr (.inr (.inr ⟨hop, hidx⟩))))))

end illegal

/-- An `op` that is none of 1 to 9 is reserved (R63 a). -/
theorem reserved_of_no_row {op : BitVec 4} : op ≠ 0x1#4 → op ≠ 0x2#4 → op ≠ 0x3#4 → op ≠ 0x4#4 → op ≠ 0x5#4 →
    op ≠ 0x6#4 → op ≠ 0x7#4 → op ≠ 0x8#4 → op ≠ 0x9#4 → op = 0x0 ∨ 0xA ≤ op := by
  revert op
  decide

/-- The decoder meets its rows: a walk through its branches, one bullet per value of `op`. -/
theorem decodedAsSpecified_decode (w : Word32) (p : List Word32) : DecodedAsSpecified w p (decode w p) := by
  unfold decode
  refine iteInduction (fun hop => ?_) fun h1 => iteInduction (fun hop => ?_) fun h2 =>
    iteInduction (fun hop => ?_) fun h3 => iteInduction (fun hop => ?_) fun h4 =>
    iteInduction (fun hop => ?_) fun h5 => iteInduction (fun hop => ?_) fun h6 =>
    iteInduction (fun hop => ?_) fun h7 => iteInduction (fun hop => ?_) fun h8 =>
    iteInduction (fun hop => ?_) fun h9 => ?_
  · refine iteInduction (illegalFor_of_ctx (.inl hop)) fun hctx => ?_
    exact iteInduction (illegalFor_of_arg (.inl hop)) fun harg => ⟨hop, not_not.mp hctx, not_not.mp harg⟩
  · exact iteInduction (illegalFor_of_ctx (.inr hop)) fun hctx => ⟨hop, not_not.mp hctx, rfl, rfl⟩
  · exact iteInduction (illegalFor_of_genNew_bits hop) fun hbits => ⟨hop, not_not.mp hbits, rfl, rfl, rfl⟩
  · exact iteInduction (illegalFor_of_arg (.inr (.inl hop))) fun harg => ⟨hop, not_not.mp harg, rfl⟩
  · exact iteInduction (illegalFor_of_updateByte_bits hop) fun hbits => ⟨hop, not_not.mp hbits, rfl, rfl⟩
  · exact ⟨hop, rfl, rfl⟩
  · exact iteInduction (illegalFor_of_arg (.inr (.inr (.inl hop)))) fun harg => ⟨hop, not_not.mp harg, rfl⟩
  · refine iteInduction (illegalFor_of_digestRead_bits hop) fun hbits => ?_
    exact iteInduction (illegalFor_of_digestRead_index hop) fun hidx =>
      ⟨hop, not_not.mp hbits, rfl, rfl, Nat.lt_of_not_le hidx⟩
  · exact iteInduction (illegalFor_of_arg (.inr (.inr (.inr hop)))) fun harg => ⟨hop, not_not.mp harg, rfl⟩
  · exact fun _ => .inl (reserved_of_no_row h1 h2 h3 h4 h5 h6 h7 h8 h9)

theorem illegalFor_of_decode {w : Word32} {p : List Word32} {why : Illegal} (h : decode w p = .illegal why)
    (ngen : Nat) : IllegalFor ngen w := by
  have hspec := decodedAsSpecified_decode w p
  rw [h] at hspec
  exact hspec ngen

/-- A word with the fields of a row decodes to the row's command (R53). -/
theorem decode_of_rowFields {w : Word32} {p : List Word32} {i : Instr} (h : RowFields w p i) :
    decode w p = .command i := by
  cases i with
  | sboxInitDefault =>
    obtain ⟨hop, hctx, harg⟩ := h
    simp only [decode, hop, hctx, harg]
    rfl
  | sboxInit passes seed =>
    obtain ⟨hop, hctx, rfl, rfl⟩ := h
    simp only [decode, hop, hctx]
    rfl
  | genNew g passes tiger2 =>
    obtain ⟨hop, hbits, rfl, rfl, rfl⟩ := h
    simp only [decode, hop, hbits]
    rfl
  | updateByte g byte =>
    obtain ⟨hop, hbits, rfl, rfl⟩ := h
    simp only [decode, hop, hbits]
    rfl
  | update g data =>
    obtain ⟨hop, rfl, rfl⟩ := h
    simp only [decode, hop]
    rfl
  | digestRead g idx =>
    obtain ⟨hop, hbits, rfl, rfl, hidx⟩ := h
    simp only [decode, hop, hbits, Nat.not_le.mpr hidx]
    rfl
  | genReset g | finalize g | status g =>
    obtain ⟨hop, harg, rfl⟩ := h
    simp only [decode, hop, harg]
    rfl

/-- Decoding answers a command exactly on the fields of its row (R53). -/
theorem decode_eq_command_iff {w : Word32} {p : List Word32} {i : Instr} :
    decode w p = .command i ↔ RowFields w p i := by
  refine ⟨fun h => ?_, decode_of_rowFields⟩
  have hspec := decodedAsSpecified_decode w p
  rwa [h] at hspec

/-! ## Masks -/

theorem opOf_and (v w : Word32) : opOf (v &&& w) = opOf v &&& opOf w := BitVec.extractLsb'_and
theorem ctxOf_and (v w : Word32) : ctxOf (v &&& w) = ctxOf v &&& ctxOf w := BitVec.extractLsb'_and
theorem argOf_and (v w : Word32) : argOf (v &&& w) = argOf v &&& argOf w := BitVec.extractLsb'_and

/-- Masking with ones from bit `k` up gives 0 exactly when those bits are 0. -/
theorem and_highMask_eq_zero_iff {n : Nat} (x : BitVec n) (k : Nat) :
    x &&& (BitVec.allOnes n <<< k) = 0 ↔ x.extractLsb' k (n - k) = 0 := by
  constructor
  · intro h
    apply BitVec.eq_of_getLsbD_eq
    intro j hj
    have hbit := congrArg (BitVec.getLsbD · (k + j)) h
    simpa [hj, show k + j < n by omega, show j < n by omega] using hbit
  · intro h
    apply BitVec.eq_of_getLsbD_eq
    intro j hj
    have hbit := congrArg (BitVec.getLsbD · (j - k)) h
    by_cases hk : j < k
    · simp [hk]
    · simpa [hj, hk, show j - k < n - k by omega, show k + (j - k) = j by omega] using hbit

/-- A row's mask takes `op` in full, `ctx` through `m`, and the bits of `arg` from bit `k` up; its match is 0 but for
`op` (R54 to R62). -/
theorem and_mask_eq_match_iff {w mask val : Word32} {op m : BitVec 4} {k : Nat} (hk : k ≤ 24)
    (hmask : mask = commandWord 0xF#4 m (BitVec.allOnes 24 <<< k)) (hval : val = commandWord op 0 0) :
    w &&& mask = val ↔ opOf w = op ∧ ctxOf w &&& m = 0 ∧ w.extractLsb' k (24 - k) = 0 := by
  rw [hmask, hval, word_eq_iff_fields, opOf_and, ctxOf_and, argOf_and, opOf_commandWord, ctxOf_commandWord,
    argOf_commandWord, opOf_commandWord, ctxOf_commandWord, argOf_commandWord, and_highMask_eq_zero_iff,
    extract_argOf w (by omega), show 0xF#4 = BitVec.allOnes 4 from rfl, BitVec.and_allOnes]

section rows
variable {w : Word32} (mask val : Word32) (op : BitVec 4) {k : Nat}

/-- A row that leaves `ctx` open (R56 to R62). -/
theorem match_iff_of_anyCtx (hk : k ≤ 24) (hmask : mask = commandWord 0xF#4 0 (BitVec.allOnes 24 <<< k))
    (hval : val = commandWord op 0 0) : w &&& mask = val ↔ opOf w = op ∧ w.extractLsb' k (24 - k) = 0 := by
  simp [and_mask_eq_match_iff hk hmask hval]

/-- A row that asks for `ctx` 0 (R54, R55). -/
theorem match_iff_of_ctxZero (hk : k ≤ 24) (hmask : mask = commandWord 0xF#4 0xF#4 (BitVec.allOnes 24 <<< k))
    (hval : val = commandWord op 0 0) :
    w &&& mask = val ↔ opOf w = op ∧ ctxOf w = 0 ∧ w.extractLsb' k (24 - k) = 0 := by
  rw [and_mask_eq_match_iff hk hmask hval, show 0xF#4 = BitVec.allOnes 4 from rfl, BitVec.and_allOnes]

end rows

theorem payloadBytes_of_sboxInit {w : Word32} (hop : opOf w = 0x2#4) :
    payloadBytes w = (w.extractLsb' 8 16).toNat := by
  simp [payloadBytes, hop]

theorem payloadBytes_of_update {w : Word32} (hop : opOf w = 0x6#4) : payloadBytes w = (w.extractLsb' 0 24).toNat := by
  simp [payloadBytes, hop]

/-- Settles O3: each row's mask and match ask for its fields; an `arg` that is all operand asks for no bits. -/
theorem decodeFollowsMaskAndMatch : Obligations.DecodeFollowsMaskAndMatch := by
  have hempty (w : Word32) : w.extractLsb' 24 (24 - 24) = 0 := BitVec.of_length_zero
  intro w p
  refine ⟨?_, fun passes seed => ?_, fun g passes tiger2 => ?_, fun g => ?_, fun g byte => ?_, fun g data => ?_,
    fun g => ?_, fun g idx => ?_, fun g => ?_⟩ <;> rw [decode_eq_command_iff]
  · exact (match_iff_of_ctxZero 0xFFFFFFFF#32 0x10000000#32 0x1#4 (k := 0) (by decide) rfl rfl).symm
  · simp only [match_iff_of_ctxZero 0xFF000000#32 0x20000000#32 0x2#4 (k := 24) (by decide) rfl rfl, RowFields,
      hempty, and_true, and_assoc]
    exact and_congr_right fun hop => by rw [payloadBytes_of_sboxInit hop]
  · rw [match_iff_of_anyCtx 0xF0FFFE00#32 0x30000000#32 0x3#4 (k := 9) (by decide) rfl rfl, and_assoc]
    exact Iff.rfl
  · rw [match_iff_of_anyCtx 0xF0FFFFFF#32 0x40000000#32 0x4#4 (k := 0) (by decide) rfl rfl, and_assoc]
    exact Iff.rfl
  · rw [match_iff_of_anyCtx 0xF0FFFF00#32 0x50000000#32 0x5#4 (k := 8) (by decide) rfl rfl, and_assoc]
    exact Iff.rfl
  · simp only [match_iff_of_anyCtx 0xF0000000#32 0x60000000#32 0x6#4 (k := 24) (by decide) rfl rfl, RowFields,
      hempty, and_true]
    exact and_congr_right fun hop => by rw [payloadBytes_of_update hop]; exact Iff.rfl
  · rw [match_iff_of_anyCtx 0xF0FFFFFF#32 0x70000000#32 0x7#4 (k := 0) (by decide) rfl rfl, and_assoc]
    exact Iff.rfl
  · rw [match_iff_of_anyCtx 0xF0FFFFE0#32 0x80000000#32 0x8#4 (k := 5) (by decide) rfl rfl, and_assoc]
    exact Iff.rfl
  · rw [match_iff_of_anyCtx 0xF0FFFFFF#32 0x90000000#32 0x9#4 (k := 0) (by decide) rfl rfl, and_assoc]
    exact Iff.rfl

end Sys2Proof.Proofs
end

section
/-! SUPPORT. Encoding undoes decoding (R47, R48, R53): a command is fixed by the fields of its row. -/

namespace Sys2Proof.Proofs
open Sys2Proof.Machine Sys2Proof.Laws

/-- With enough payload words, as many bytes are unpacked as asked for (R48). -/
theorem unpackBytes_length {n : Nat} {ws : List Word32} (h : n ≤ 4 * ws.length) : (unpackBytes n ws).length = n := by
  simpa [unpackBytes, wordBytes, Nat.mul_comm] using h

theorem wellFormed_of_rowFields {w : Word32} {p : List Word32} {i : Instr} (h : RowFields w p i) :
    WellFormed i = true := by
  cases i with
  | sboxInit passes seed =>
    obtain ⟨hop, _, _, rfl⟩ := h
    refine decide_eq_true ((unpackBytes_length_le _ p).trans_lt ?_)
    rw [payloadBytes_of_sboxInit hop]
    exact BitVec.isLt _
  | update g data =>
    obtain ⟨hop, _, rfl⟩ := h
    refine decide_eq_true ((unpackBytes_length_le _ p).trans_lt ?_)
    rw [payloadBytes_of_update hop]
    exact BitVec.isLt _
  | digestRead g idx =>
    obtain ⟨_, _, _, rfl, hidx⟩ := h
    exact decide_eq_true hidx
  | _ => rfl

/-- The payload of a row's command is what the command word announces (R47, R48). -/
theorem payload_of_rowFields {w : Word32} {p : List Word32} {i : Instr} (h : RowFields w p i) :
    i.payload = unpackBytes (payloadBytes w) p := by
  have hnone (hinit : opOf w ≠ 0x2#4) (hupdate : opOf w ≠ 0x6#4) : [] = unpackBytes (payloadBytes w) p := by
    simp [payloadBytes, hinit, hupdate, unpackBytes]
  cases i with
  | sboxInit passes seed => obtain ⟨_, _, _, hseed⟩ := h; exact hseed
  | update g data => obtain ⟨_, _, hdata⟩ := h; exact hdata
  | _ =>
    obtain ⟨hop, _⟩ := h
    exact hnone (by rw [hop]; decide) (by rw [hop]; decide)

/-- A row's command has the word as its command word, when the payload is as long as announced (R53 to R62). -/
theorem encodeHead_of_rowFields {w : Word32} {p : List Word32} {i : Instr} (hlen : p.length = payloadWords w)
    (h : RowFields w p i) : encodeHead i = w := by
  have hbytes : (unpackBytes (payloadBytes w) p).length = payloadBytes w :=
    unpackBytes_length (by rw [hlen, payloadWords]; omega)
  cases i with
  | sboxInitDefault =>
    obtain ⟨hop, hctx, harg⟩ := h
    exact commandWord_eq_of_fields hop hctx harg.symm
  | sboxInit passes seed =>
    obtain ⟨hop, hctx, rfl, rfl⟩ := h
    refine commandWord_eq_of_fields hop hctx ?_
    rw [hbytes, payloadBytes_of_sboxInit hop, BitVec.ofNat_toNat, BitVec.setWidth_eq]
    exact BitVec.extractLsb'_append_extractLsb'_eq_extractLsb' rfl
  | genNew g passes tiger2 =>
    obtain ⟨hop, hbits, rfl, rfl, rfl⟩ := h
    have hmode : 0#15 ++ BitVec.ofBool (w.getLsbD 8) = w.extractLsb' 8 16 := by
      rw [← extract_one_eq_ofBool, ← show w.extractLsb' 9 15 = 0#15 from hbits]
      exact BitVec.extractLsb'_append_extractLsb'_eq_extractLsb' rfl
    refine commandWord_eq_of_fields hop rfl ?_
    rw [hmode]
    exact BitVec.extractLsb'_append_extractLsb'_eq_extractLsb' rfl
  | updateByte g byte =>
    obtain ⟨hop, hbits, rfl, rfl⟩ := h
    refine commandWord_eq_of_fields hop rfl ?_
    rw [← show w.extractLsb' 8 16 = 0#16 from hbits]
    exact BitVec.extractLsb'_append_extractLsb'_eq_extractLsb' rfl
  | update g data =>
    obtain ⟨hop, rfl, rfl⟩ := h
    refine commandWord_eq_of_fields hop rfl ?_
    rw [hbytes, payloadBytes_of_update hop, BitVec.ofNat_toNat, BitVec.setWidth_eq, argOf]
  | digestRead g idx =>
    obtain ⟨hop, hbits, rfl, rfl, _⟩ := h
    refine commandWord_eq_of_fields hop rfl ?_
    rw [← show w.extractLsb' 5 19 = 0#19 from hbits]
    exact BitVec.extractLsb'_append_extractLsb'_eq_extractLsb' rfl
  | genReset g | finalize g | status g =>
    obtain ⟨hop, harg, rfl⟩ := h
    exact commandWord_eq_of_fields hop rfl harg.symm

/-- Settles O2: a decoded word has the fields of the command's row, and they fix the command word and the payload. -/
theorem encodeOfDecodeIsTheWord : Obligations.EncodeOfDecodeIsTheWord := by
  intro w p i hlen hdecode
  have hrow := decode_eq_command_iff.mp hdecode
  exact ⟨wellFormed_of_rowFields hrow, encodeHead_of_rowFields hlen hrow, payload_of_rowFields hrow⟩

end Sys2Proof.Proofs
end

section
/-! SUPPORT. Legal words and incomplete commands at the head of the stream (R51, R52, R63). -/

namespace Sys2Proof.Proofs
open Sys2Proof.Machine Sys2Proof.Laws

/-- A row's command names no context, or the one of the `ctx` field, with an `op` from 3 to 9 (R46). -/
theorem ctx?_of_rowFields {w : Word32} {p : List Word32} {i : Instr} (h : RowFields w p i) :
    i.ctx? = none ∨ i.ctx? = some (ctxOf w) ∧ 0x3 ≤ opOf w ∧ opOf w ≤ 0x9 := by
  cases i with
  | sboxInitDefault => exact .inl rfl
  | sboxInit passes seed => exact .inl rfl
  | _ => right; simp_all [RowFields, Instr.ctx?]

theorem ctxExists_iff_of_ctx? {i : Instr} {g : CtxNum} (h : i.ctx? = some g) (ngen : Nat) :
    i.ctxExists ngen = true ↔ g.toNat < ngen := by
  simp [Instr.ctxExists, h]

theorem ctxExists_of_no_ctx {i : Instr} (h : i.ctx? = none) (ngen : Nat) : i.ctxExists ngen = true := by
  simp [Instr.ctxExists, h]

/-- A row's command names an absent context only in a word that is illegal for the block (R63 c). -/
theorem ctxExists_of_rowFields {w : Word32} {p : List Word32} {i : Instr} {ngen : Nat} (h : RowFields w p i)
    (hlegal : ¬ IllegalFor ngen w) : i.ctxExists ngen = true := by
  rcases ctx?_of_rowFields h with hnone | ⟨hsome, hop⟩
  · exact ctxExists_of_no_ctx hnone ngen
  · rw [ctxExists_iff_of_ctx? hsome]
    exact Nat.lt_of_not_le fun hctx => hlegal (.inr (.inr (.inl ⟨hop, hctx⟩)))

/-- Settles O8: a legal word does not decode to an illegal one, so it has the fields of a row. -/
theorem legalWordIsExecuted : Obligations.LegalWordIsExecuted := by
  intro s head payload rest hfetch hlegal
  cases hdecode : decode head payload with
  | illegal why => exact absurd (illegalFor_of_decode hdecode s.ngen) hlegal
  | command i =>
    have hrow := decode_eq_command_iff.mp hdecode
    exact ⟨i, rfl, ctxExists_of_rowFields hrow hlegal, wellFormed_of_rowFields hrow,
      stepExecutesDecodedCommand s head payload rest i hfetch hdecode⟩

theorem step_of_fetch_waiting {s : State} (h : fetch s.inp = .waiting) : step s = .next s := by
  simp [step, h]

/-- A command word before fewer payload words than it announces leaves the block waiting (R51). -/
theorem fetch_of_missing_payload {w : Word32} {ws : List Word32} (h : ws.length < payloadWords w) :
    fetch (.word w :: ws.map HostEvent.word) = .waiting := by
  simp [fetch, takePayload_missing ws h]

/-- Settles O9: on an empty stream and on an incomplete command the block waits. -/
theorem incompleteCommandWaits : Obligations.IncompleteCommandWaits := by
  refine ⟨fun s hinp => step_of_fetch_waiting ?_, fun s w ws hinp hlen => step_of_fetch_waiting ?_⟩
  · rw [hinp, fetch]
  · rw [hinp, fetch_of_missing_payload hlen]

end Sys2Proof.Proofs
end

section
/-! SUPPORT. The responses (R49, R50): what every command answers, said once, and which answers are
`ERR_ILLEGAL_CMD` (R132). -/

namespace Sys2Proof.Proofs
open Sys2Proof.Machine Sys2Proof.Laws

/-- The number of data words of an `OK` response (R50). -/
def dataWords : Instr → Nat
  | .sboxInitDefault => 0
  | .sboxInit _ _ => 0
  | .genNew _ _ _ => 0
  | .genReset _ => 0
  | .updateByte _ _ => 0
  | .update _ _ => 0
  | .finalize _ => 6
  | .digestRead _ _ => 1
  | .status _ => 1

/-- The two clauses of R63 that a command itself can meet: (c) an absent context, (e) a digest index of 24 or more. -/
def IllegalCommand (ngen : Nat) (i : Instr) : Prop :=
  i.ctxExists ngen = false ∨ ∃ g idx, i = .digestRead g idx ∧ 24 ≤ idx.toNat

/-- The answer `t` of command `i` in state `s`: `ERR_ILLEGAL_CMD` if it is illegal for the block, else another fault or
`OK` with the data words of its row (R49, R50, R132). -/
inductive Response (s : State) (i : Instr) (t : State) : Prop where
  /-- Refused before any other check (R136). -/
  | illegal (hillegal : IllegalCommand s.ngen i) (ht : t = s.raise .illegalCmd)
  /-- Refused with another code (R133 to R135). -/
  | refused (hlegal : ¬ IllegalCommand s.ngen i) (e : ErrCode) (he : e ≠ .illegalCmd) (ht : t = s.raise e)
  /-- Accepted. -/
  | ok (hlegal : ¬ IllegalCommand s.ngen i) (data : List Word32) (hdata : data.length = dataWords i)
      (ht : t.out = s.out ++ statusWord 0 :: data)

section response
variable {s : State} {i : Instr} {g : CtxNum}

theorem legal_of_no_ctx (hi : i.ctx? = none) : ¬ IllegalCommand s.ngen i := by
  rintro (hctx | ⟨g, idx, rfl, _⟩)
  · simp [ctxExists_of_no_ctx hi] at hctx
  · cases hi

theorem ctxExists_eq_false_iff (hi : i.ctx? = some g) : i.ctxExists s.ngen = false ↔ s.ctx? g = none := by
  rw [← Bool.not_eq_true, ctxExists_iff_of_ctx? hi, ctx?_eq_none_iff, not_lt]

/-- Selecting a context: refused when it is absent (R63 c), else answered as what follows the selection. -/
theorem onCtx_response {f : GenCtx → State} (hi : i.ctx? = some g)
    (hidx : ¬ ∃ g idx, i = .digestRead g idx ∧ 24 ≤ idx.toNat)
    (hf : ∀ c, ¬ IllegalCommand s.ngen i → Response s i (f c)) : Response s i (s.onCtx g f) := by
  rcases onCtx_cases s g f with ⟨hnone, h⟩ | ⟨c, hc, h⟩
  · exact .illegal (.inl ((ctxExists_eq_false_iff hi).mpr hnone)) h
  · rw [h]
    refine hf c (not_or.mpr ⟨fun hctx => ?_, hidx⟩)
    simp [(ctxExists_eq_false_iff hi).mp hctx] at hc

/-- The checks of the byte commands after the selection of the context (R100, R101). -/
theorem acceptBytes_response (data : List Byte) (hi : i.ctx? = some g)
    (hidx : ¬ ∃ g idx, i = .digestRead g idx ∧ 24 ≤ idx.toNat) (hwords : dataWords i = 0) :
    Response s i (s.acceptBytes g data) := by
  refine onCtx_response hi hidx fun c hlegal => ?_
  split
  · exact .refused hlegal _ (by decide) rfl
  · split
    · exact .refused hlegal _ (by decide) rfl
    · exact .ok hlegal [] hwords.symm rfl

end response

/-- What every command answers. -/
theorem exec_response {i : Instr} {s t : State} (h : exec i s = .next t) : Response s i t := by
  cases i <;> obtain rfl := Host.Outcome.next.inj h
  case sboxInitDefault => exact .ok (legal_of_no_ctx rfl) [] rfl rfl
  case sboxInit passes seed => exact .ok (legal_of_no_ctx rfl) [] rfl rfl
  case genNew g passes tiger2 => exact onCtx_response rfl (by simp) fun c hlegal => .ok hlegal [] rfl rfl
  case genReset g => exact onCtx_response rfl (by simp) fun c hlegal => .ok hlegal [] rfl rfl
  case updateByte g byte => exact acceptBytes_response [byte] rfl (by simp) rfl
  case update g data => exact acceptBytes_response data rfl (by simp) rfl
  case finalize g =>
    have hdigest (junk : Nat → Byte) (c : GenCtx) : (packBytes (c.digest junk)).length = 6 := by
      rw [packBytes_length, digest_length]
    refine onCtx_response rfl (by simp) fun c hlegal => ?_
    split
    · exact .refused hlegal _ (by decide) rfl
    · split
      · exact .ok hlegal _ (hdigest _ _) rfl
      · exact .ok hlegal _ (hdigest _ _) rfl
  case digestRead g idx =>
    refine iteInduction (fun hidx => .illegal (.inr ⟨g, idx, rfl, hidx⟩) rfl) fun hidx => ?_
    refine onCtx_response rfl (by simpa using hidx) fun c hlegal => ?_
    split
    · exact .ok hlegal _ rfl rfl
    · exact .refused hlegal _ (by decide) rfl
  case status g => exact onCtx_response rfl (by simp) fun c hlegal => .ok hlegal _ rfl rfl

/-- Settles O18: an illegal command answers code 1, another refusal another code, and an accepted command `OK`. -/
theorem illegalCommandRaisedExactly : Obligations.IllegalCommandRaisedExactly := by
  intro i s t ht
  change t.out = s.out ++ [statusWord ErrCode.illegalCmd.code] ↔ IllegalCommand s.ngen i
  cases exec_response ht with
  | illegal hillegal ht => exact iff_of_true (by rw [ht, raise_out]) hillegal
  | refused hlegal e he ht =>
    refine iff_of_false (fun hout => he ?_) hlegal
    rw [ht, raise_out] at hout
    exact code_injective (statusWord_injective (List.cons.inj (List.append_cancel_left hout)).1)
  | ok hlegal data _ ht => exact iff_of_false (ht ▸ append_ok_ne_append_code _ _ _) hlegal

/-- Settles O19: a refusal answers its code alone, and an accepted command `OK` with the data words of its row. -/
theorem everyCommandAnswersOnce : Obligations.EveryCommandAnswersOnce := by
  intro i s
  obtain ⟨t, ht⟩ := exec_isNext i s
  cases exec_response ht with
  | illegal _ hraise => exact ⟨t, _, ht, by rw [hraise, raise_out], .inl ⟨_, rfl⟩⟩
  | refused _ e _ hraise => exact ⟨t, _, ht, by rw [hraise, raise_out], .inl ⟨e, rfl⟩⟩
  | ok _ data hdata hout => exact ⟨t, _, ht, hout, .inr ⟨data, rfl, by cases i <;> exact hdata⟩⟩

end Sys2Proof.Proofs
end

section
/-! SUPPORT. What the two SBox commands answer (R71, R72, R76), and that no other command writes the table (R77). -/

namespace Sys2Proof.Proofs
open Sys2Proof.Machine Sys2Proof.Laws

theorem exec_sboxInit (passes : BitVec 8) (seed : List Byte) (s : State) :
    exec (.sboxInit passes seed) s = .next (s.buildTable (sboxGenerate seed passes.toNat)) := rfl

theorem exec_sboxInitDefault (s : State) :
    exec .sboxInitDefault s = .next (s.buildTable (sboxGenerate defaultSeed defaultSBoxPasses)) := rfl

/-- Building a table writes `TBL`, sets `SBOX_VALID` and answers the single word `OK`; nothing else changes. -/
theorem buildTable_eq (s : State) (t : Table) :
    s.buildTable t = { s with tbl := t.toMemory, sboxValid := true, out := s.out ++ [0] } := rfl

/-- `TBL` after `SBOX_INIT` is the generated table (R71). -/
theorem tbl_of_exec_sboxInit {passes : BitVec 8} {seed : List Byte} {s t : State}
    (h : exec (.sboxInit passes seed) s = .next t) : t.tbl = (sboxGenerate seed passes.toNat).toMemory := by
  obtain rfl := Host.Outcome.next.inj h
  exact buildTable_tbl s _

/-- `TBL` after `SBOX_INIT_DEFAULT` is the generated default table (R72). -/
theorem tbl_of_exec_sboxInitDefault {s t : State} (h : exec .sboxInitDefault s = .next t) :
    t.tbl = (sboxGenerate defaultSeed defaultSBoxPasses).toMemory := by
  obtain rfl := Host.Outcome.next.inj h
  exact buildTable_tbl s _

/-- Settles O20: the generated table is written at every address of `TBL`, in canonical form. -/
theorem sboxInitBuildsTable : Obligations.SboxInitBuildsTable := by
  intro passes seed s
  refine ⟨(sboxGenerate seed passes.toNat).toMemory, ?_, wf_toMemory _, fun a ha => ?_⟩
  · rw [exec_sboxInit, buildTable_eq]
  · rw [lookup_toMemory, if_pos ha]

/-- Settles O21: both commands build the table generated from the default seed in five passes. -/
theorem sboxInitDefaultIsFivePassesOfDefaultSeed : Obligations.SboxInitDefaultIsFivePassesOfDefaultSeed := by
  have hpasses : defaultSBoxPasses = (5 : BitVec 8).toNat := rfl
  refine ⟨by decide, fun s => ⟨(sboxGenerate defaultSeed defaultSBoxPasses).toMemory, ?_, ?_⟩⟩
  · rw [exec_sboxInitDefault, buildTable_eq]
  · rw [exec_sboxInit, ← hpasses, buildTable_eq]

/-- The generated table depends on the seed by its working block alone (R67, R76). -/
theorem sboxGenerate_eq_of_bytes {seed seed' : List Byte} (passes : Nat)
    (h : ∀ p, p < 64 → seedByte seed p = seedByte seed' p) : sboxGenerate seed passes = sboxGenerate seed' passes := by
  rw [sboxGenerate, sboxGenerate, seedBlock_eq_of_bytes h]

/-- Settles O23: the generated table takes nothing from the state it is written to. -/
theorem tableDependsOnSeedAndPassesAlone : Obligations.TableDependsOnSeedAndPassesAlone := by
  refine ⟨fun passes seed seed' s s' t t' hseed ht ht' => ?_, fun s s' t t' ht ht' => ?_⟩
  · rw [tbl_of_exec_sboxInit ht, tbl_of_exec_sboxInit ht', sboxGenerate_eq_of_bytes _ hseed]
  · rw [tbl_of_exec_sboxInitDefault ht, tbl_of_exec_sboxInitDefault ht']

/-- Settles O26: of the things a command can do, only building the table writes `TBL` or `SBOX_VALID`. -/
theorem onlySboxCommandsWriteTable : Obligations.OnlySboxCommandsWriteTable := by
  intro i s t h hdefault hinit
  cases exec_effect h with
  | refused e => exact ⟨rfl, rfl⟩
  | answered data => exact ⟨rfl, rfl⟩
  | built tab hi =>
    rcases hi with hi | ⟨passes, seed, hi⟩
    · exact absurd hi hdefault
    · exact absurd hi (hinit passes seed)
  | replaced data _ _ => exact ⟨rfl, rfl⟩

end Sys2Proof.Proofs
end

section
/-! SUPPORT. The fill pattern (R66), and the lanes of the sub-tables as permutations of the byte values (R75). -/

namespace Sys2Proof.Proofs
open Sys2Proof.Machine Sys2Proof.Laws

/-- A concatenation as a number. -/
theorem toNat_append_eq_add {m n : Nat} (x : BitVec m) (y : BitVec n) :
    (x ++ y).toNat = x.toNat * 2 ^ n + y.toNat := by
  rw [BitVec.toNat_append, ← Nat.shiftLeft_add_eq_or_of_lt y.isLt, Nat.shiftLeft_eq]

/-- A word of the fill pattern repeats its index in all eight bytes (R66). -/
theorem fillWord_eq {v : Nat} (hv : v < 256) :
    BitVec.ofNat 64 (v * 0x0101010101010101) = wordFromBytes fun _ => BitVec.ofNat 8 v := by
  have hbyte : v % 2 ^ 8 = v := Nat.mod_eq_of_lt hv
  have hword : v * 0x0101010101010101 % 2 ^ 64 = v * 0x0101010101010101 := Nat.mod_eq_of_lt (by omega)
  apply BitVec.eq_of_toNat_eq
  simp only [wordFromBytes, toNat_append_eq_add, BitVec.toNat_ofNat, hbyte, hword]
  omega

/-- Every byte of entry `v` of each sub-table of the fill pattern is `v` (R66). -/
theorem fillTable_sub_byte {sub v col : Nat} (hs : sub < 4) (hv : v < 256) (hc : col < 8) :
    (fillTable.sub sub).byte (8 * v + col) = BitVec.ofNat 8 v := by
  have hsub : fillTable.sub sub =
      SubTable.ofWords ((List.range 256).map fun i => BitVec.ofNat 64 (i * 0x0101010101010101)) := by
    interval_cases sub <;> rfl
  have hword : (fillTable.sub sub).word v = wordFromBytes fun _ => BitVec.ofNat 8 v := by
    rw [hsub, word_ofWords _ hv, ← fillWord_eq hv]
    simp [hv]
  rw [← byteOf_word _ _ hc, hword, byteOf_wordFromBytes _ hc]

/-- Every byte of word `i` of the fill pattern is `i` modulo 256 (R66). -/
theorem fillTable_byte {i col : Nat} (hi : i < 1024) (hc : col < 8) :
    fillTable.byte (8 * i + col) = BitVec.ofNat 8 i := by
  have hmod : i % 256 < 256 := Nat.mod_lt i (by decide)
  have hbyte := table_byte fillTable (s := i / 256) hmod hc
  rw [Nat.div_add_mod, fillTable_sub_byte (by omega) hmod hc] at hbyte
  rw [hbyte]
  exact BitVec.eq_of_toNat_eq (by simp)

/-- With no passes the loop does not run (R74). -/
theorem sboxGenerate_zero (seed : List Byte) : sboxGenerate seed 0 = fillTable := by
  rw [sboxGenerate, Nat.zero_mul, run_zero, GenLoop.start]

/-- Settles O22: with no passes the table that is written is the fill pattern. -/
theorem zeroPassesLeaveFillPattern : Obligations.ZeroPassesLeaveFillPattern := by
  intro s seed
  refine ⟨_, exec_sboxInit 0 seed s, buildTable_sboxValid s _, fun i col hi hc => ?_⟩
  rw [buildTable_tbl, lookup_toMemory, if_pos (by omega), show (0 : BitVec 8).toNat = 0 from rfl, sboxGenerate_zero,
    fillTable_byte hi hc]

/-- Lane `col` of a sub-table, as a function of the entry's index (R70). -/
def SubTableLane (u : SubTable) (col : Nat) (v : Byte) : Byte := u.byte (8 * v.toNat + col)

/-- Each lane of each sub-table is a permutation of the byte values (R75). -/
def LanesBijective (t : Table) : Prop := ∀ sub < 4, ∀ col < 8, Function.Bijective (SubTableLane (t.sub sub) col)

/-- `SwapLanes` composes each lane with the exchange of the entry at the position and the selected entry (R70). -/
theorem subTableLane_swapLanes (u : SubTable) (sel : Word) {i col : Nat} (hi : i < 256) (hc : col < 8) :
    SubTableLane (swapLanes u i sel) col =
      SubTableLane u col ∘ Equiv.swap (BitVec.ofNat 8 i) (byteOf sel col) := by
  funext v
  have hnat : (BitVec.ofNat 8 i).toNat = i := by simp [hi]
  have heq (b : Byte) : v.toNat = b.toNat ↔ v = b := BitVec.toNat_inj
  rw [SubTableLane, byte_swapLanes u sel hi v.isLt hc, Function.comp_apply, Equiv.swap_apply_def]
  simp only [← heq, hnat, SubTableLane]
  split_ifs <;> simp only [hnat]

/-- Every inner iteration keeps the lanes permutations: it exchanges two entries of each lane it touches. -/
theorem inner_lanesBijective (w : Words8) (l : GenLoop) (n : Nat) (h : LanesBijective l.tab) :
    LanesBijective (l.inner w n).tab := by
  intro sub hs col hc
  rw [inner_tab_sub w l n hs]
  split
  · rw [subTableLane_swapLanes _ _ (Nat.mod_lt _ (by decide)) hc]
    exact (h sub hs col hc).comp (Equiv.bijective _)
  · exact h sub hs col hc

/-- Each lane of the fill pattern is the identity (R66). -/
theorem fillTable_lanesBijective : LanesBijective fillTable := by
  intro sub hs col hc
  have hid : SubTableLane (fillTable.sub sub) col = id := funext fun v => by
    rw [SubTableLane, fillTable_sub_byte hs v.isLt hc, BitVec.ofNat_toNat, BitVec.setWidth_eq, id]
  exact hid ▸ Function.bijective_id

/-- The lanes of every generated table are permutations (R75). -/
theorem sboxGenerate_lanesBijective (seed : List Byte) (passes : Nat) : LanesBijective (sboxGenerate seed passes) :=
  run_induction (P := fun l => LanesBijective l.tab) (inner_lanesBijective _) _ _ _ fillTable_lanesBijective

/-- Settles O24: a byte value has exactly one place in a lane that is a permutation. -/
theorem lanesStayPermutations : Obligations.LanesStayPermutations := by
  intro passes seed s t ht sub col v hs hc
  have hlookup : ∀ i < 256, t.tbl.lookup (8 * (256 * sub + i) + col) =
      some (((sboxGenerate seed passes.toNat).sub sub).byte (8 * i + col)) := fun i hi => by
    rw [tbl_of_exec_sboxInit ht, lookup_toMemory, if_pos (by omega), table_byte _ hi hc]
  obtain ⟨b, hb, hunique⟩ := (sboxGenerate_lanesBijective seed passes.toNat sub hs col hc).existsUnique v
  refine ⟨b.toNat, ⟨b.isLt, ?_⟩, ?_⟩
  · rw [hlookup _ b.isLt]
    exact congrArg some hb
  · rintro i ⟨hi, hv⟩
    rw [hlookup i hi, Option.some.injEq] at hv
    have hnat : (BitVec.ofNat 8 i).toNat = i := by simp [hi]
    rw [← hunique (BitVec.ofNat 8 i) (by simp only [SubTableLane, hnat, hv]), hnat]

end Sys2Proof.Proofs
end

section
/-! SUPPORT. One inner iteration of the permutation loop (R69, R70): the rolling counter, the compression of every
third iteration, and the bytes that are exchanged. -/

namespace Sys2Proof.Proofs
open Sys2Proof.Machine Sys2Proof.Laws

/-- The rolling counter after `n` inner iterations tells `n` modulo 3 (R69). -/
def CounterAt (n : Nat) (l : GenLoop) : Prop := l.abc = (n + 2) % 3

/-- The counter update of inner iteration `n` makes the counter `n mod 3`. -/
theorem advance_abc (w : Words8) {l : GenLoop} {n : Nat} (h : CounterAt n l) : (l.advance w).abc = n % 3 := by
  rw [CounterAt] at h
  simp only [GenLoop.advance]
  split
  · show 0 = n % 3
    omega
  · show l.abc + 1 = n % 3
    omega

/-- `Compress` runs in inner iteration `n` exactly when `n` is a multiple of 3. -/
theorem advance_gs (w : Words8) {l : GenLoop} {n : Nat} (h : CounterAt n l) :
    (l.advance w).gs = if n % 3 = 0 then compress l.tab l.gs w 3 else l.gs := by
  have hiff : l.abc + 1 = 3 ↔ n % 3 = 0 := by rw [CounterAt] at h; omega
  simp only [GenLoop.advance, hiff]
  split <;> rfl

@[simp] theorem inner_abc (w : Words8) (l : GenLoop) (n : Nat) : (l.inner w n).abc = (l.advance w).abc := rfl
@[simp] theorem inner_gs (w : Words8) (l : GenLoop) (n : Nat) : (l.inner w n).gs = (l.advance w).gs := rfl

/-- The counter after `n` inner iterations (R69). -/
theorem run_counterAt (w : Words8) (n : Nat) : CounterAt n (GenLoop.run w n 0 GenLoop.start) := by
  induction n with
  | zero => rfl
  | succ n ih =>
    rw [CounterAt, run_succ_end, Nat.zero_add, inner_abc, advance_abc w ih]
    omega

/-- The bytes that inner iteration `n` exchanges, by their addresses in `TBL` (R70). -/
theorem inner_tab_byte (w : Words8) (l : GenLoop) (n : Nat) {sub v col : Nat} (hs : sub < 4) (hv : v < 256)
    (hc : col < 8) :
    (l.inner w n).tab.byte (8 * (256 * sub + v) + col) =
      if sub = n % 4 ∧ v = n / 4 % 256 then
        l.tab.byte
          (8 * (256 * sub + (byteOf (Words3.get (l.advance w).gs (l.advance w).abc) col).toNat) + col)
      else if sub = n % 4 ∧ v = (byteOf (Words3.get (l.advance w).gs (l.advance w).abc) col).toNat then
        l.tab.byte (8 * (256 * sub + n / 4 % 256) + col)
      else l.tab.byte (8 * (256 * sub + v) + col) := by
  have hpos : n / 4 % 256 < 256 := Nat.mod_lt _ (by decide)
  rw [table_byte _ hv hc, table_byte _ (BitVec.isLt _) hc, table_byte _ hpos hc, table_byte _ hv hc,
    inner_tab_sub w l n hs]
  by_cases hsub : sub = n % 4
  · simp only [hsub, if_true, true_and]
    exact byte_swapLanes _ _ hpos hv hc
  · simp only [hsub, if_false, false_and]

/-- Settles O25: inner iteration `n` follows `n` others, so its counter is `n mod 3` after the update. -/
theorem rollingCounterHasPeriodThree : Obligations.RollingCounterHasPeriodThree := by
  rintro w n l l' hl rfl
  have hcounter : CounterAt n l := hl ▸ run_counterAt w n
  rw [run_succ_end, Nat.zero_add, ← hl, inner_gs]
  refine ⟨hcounter, advance_gs w hcounter, fun sub v col hs hv hc => ?_⟩
  rw [inner_tab_byte w l n hs hv hc, advance_abc w hcounter]

end Sys2Proof.Proofs
end

section
/-! SUPPORT. The compression core (spec file 41): the lookups of Round as words of the table (R81, R82), Pass as a fold
of rounds (R83), and the additional passes as an iteration (R85). -/

namespace Sys2Proof.Proofs
open Sys2Proof.Machine Sys2Proof.Laws

/-- `SB(i, v) = T[256*i + v]` (R81), as the table numbers its words. -/
theorem sb_eq_word (t : Table) (i : Nat) (v : Byte) : t.sb i v = t.word (256 * i + v.toNat) := by
  have hv : v.toNat < 256 := v.isLt
  rw [Table.sb, Table.word, show (256 * i + v.toNat) / 256 = i by omega,
    show (256 * i + v.toNat) % 256 = v.toNat by omega]

/-- Settles O31: each lookup is the word of its sub-table at the byte's value. -/
theorem roundFollowsTheTable : Obligations.RoundFollowsTheTable := by
  intro t a b c x mul
  simp only [Machine.round, evenLookups, oddLookups, sb_eq_word, Nat.mul_zero, Nat.zero_add, Nat.reduceMul]

/-- Pass is a fold of rounds over the block (R83): the state of the fold has the round's third role first. -/
theorem pass_eq_foldl (t : Table) (a b c mul : Word) (x : Words8) {r : Words3}
    (hr : r = [x.x0, x.x1, x.x2, x.x3, x.x4, x.x5, x.x6, x.x7].foldl
      (fun v xk => round t v.w1 v.w2 v.w0 xk mul) ⟨c, a, b⟩) :
    pass t a b c x mul = ⟨r.w2, r.w0, r.w1⟩ := by
  subst hr
  rfl

/-- One additional pass on the working registers and the block: schedule, pass and rotation (R85, R87). -/
def extraPass (t : Table) (vx : Words3 × Words8) : Words3 × Words8 :=
  let q := pass t vx.1.w0 vx.1.w1 vx.1.w2 (schedule vx.2) 9
  (⟨q.w2, q.w0, q.w1⟩, schedule vx.2)

/-- The additional passes are `extraPass`, iterated. -/
theorem extraPasses_eq_iterate (t : Table) (n : Nat) (v : Words3) (x : Words8) :
    extraPasses t n v x = ((extraPass t)^[n] (v, x)).1 := by
  induction n generalizing v x with
  | zero => rfl
  | succ n ih =>
    rw [extraPasses_succ, ih, Function.iterate_succ_apply]
    rfl

/-- `Compress` from its first three passes on (R87): the additional passes, then the feed-forward. -/
theorem compress_of_firstPasses {t : Table} {st p1 p2 p3 : Words3} {blk : Words8} (passes : Nat)
    (h1 : p1 = pass t st.w0 st.w1 st.w2 blk 5)
    (h2 : p2 = pass t p1.w2 p1.w0 p1.w1 (schedule blk) 7)
    (h3 : p3 = pass t p2.w2 p2.w0 p2.w1 (schedule (schedule blk)) 9) :
    compress t st blk passes =
      feedForward (extraPasses t (max 3 passes - 3) ⟨p3.w2, p3.w0, p3.w1⟩ (schedule (schedule blk))) st := by
  subst h1 h2 h3
  rfl

/-- A pass count below 3 is taken as 3 (R88). -/
theorem compress_max_three (t : Table) (st : Words3) (blk : Words8) (passes : Nat) :
    compress t st blk (max 3 passes) = compress t st blk passes := by
  rw [compress_of_firstPasses (max 3 passes) rfl rfl rfl, compress_of_firstPasses passes rfl rfl rfl, sup_left_idem]

/-- Settles O32: Pass, Schedule, the pass sequence with its feed-forward, and the least pass count, each by its law. -/
theorem compressRunsAtLeastThreePasses : Obligations.CompressRunsAtLeastThreePasses := by
  refine ⟨fun t a b c mul x r => pass_eq_foldl t a b c mul x, ?schedule, ?sequence,
    fun t st blk passes => (compress_max_three t st blk passes).symm⟩
  case schedule =>
    rintro x z rfl
    -- Each of the first eight equations is the definition of its word of `y`.
    exact ⟨⟨_, _, _, _, _, _, _, _⟩, rfl, rfl, rfl, rfl, rfl, rfl, rfl, rfl,
      rfl, rfl, rfl, rfl, rfl, rfl, rfl, rfl⟩
  case sequence =>
    intro t st p1 p2 p3 v blk x passes h1 h2 h3 hv
    have hextra : extraPasses t (max 3 passes - 3) ⟨p3.w2, p3.w0, p3.w1⟩ (schedule (schedule blk)) = v := by
      rw [extraPasses_eq_iterate]
      exact congrArg Prod.fst hv.symm
    rw [compress_of_firstPasses passes h1 h2 h3, hextra, feedForward]

end Sys2Proof.Proofs
end

section
/-! SUPPORT. The padding as a list of bytes (R105): its length, its bytes, the padded message, and that `FINALIZE`
stores exactly these bytes (R102, R103). -/

namespace Sys2Proof.Proofs
open Sys2Proof.Machine Sys2Proof.Laws

/-- The bytes that the padding appends to a message of `len` bytes: marker, zeros and bit length (R105). -/
def paddingBytes (marker : Byte) (len : Nat) : List Byte :=
  marker :: List.replicate (padZeroCount len) 0 ++ wordToBytes (BitVec.ofNat 64 (8 * len))

theorem paddingBytes_length (marker : Byte) (len : Nat) :
    (paddingBytes marker len).length = padZeroCount len + 9 := by
  simp [paddingBytes]

theorem wordToBytes_getElem? (w : Word) {j : Nat} (hj : j < 8) : (wordToBytes w)[j]? = some (byteOf w j) := by
  simp [wordToBytes, hj]

theorem paddingBytes_marker (marker : Byte) (len : Nat) : (paddingBytes marker len)[0]? = some marker := rfl

theorem paddingBytes_zero (marker : Byte) {len k : Nat} (hpos : 0 < k) (hk : k ≤ padZeroCount len) :
    (paddingBytes marker len)[k]? = some 0 := by
  obtain ⟨k, rfl⟩ : ∃ n, k = n + 1 := ⟨k - 1, by omega⟩
  have hlt : k < padZeroCount len := hk
  simp [paddingBytes, hlt, List.getElem?_append_left]

theorem paddingBytes_bitLength (marker : Byte) (len : Nat) {j : Nat} (hj : j < 8) :
    (paddingBytes marker len)[padZeroCount len + 1 + j]? = some (byteOf (BitVec.ofNat 64 (8 * len)) j) := by
  rw [← wordToBytes_getElem? _ hj, paddingBytes, List.getElem?_append_right (by simp)]
  simp

/-- The padded message is the message and its padding (R105). -/
theorem padMessage_eq_append (marker : Byte) (msg : List Byte) :
    padMessage marker msg = msg ++ paddingBytes marker msg.length :=
  List.append_assoc msg _ _

/-- The padded length counts the marker, the zeros and the eight bytes of the bit length (R105). -/
theorem paddedLength_eq_add (len : Nat) : paddedLength len = len + (padZeroCount len + 9) := by
  unfold paddedLength padZeroCount
  split <;> omega

theorem padMessage_length (marker : Byte) (msg : List Byte) :
    (padMessage marker msg).length = paddedLength msg.length := by
  rw [padMessage_eq_append, List.length_append, paddingBytes_length, paddedLength_eq_add]

theorem paddedLength_mod (len : Nat) : paddedLength len % 64 = 0 := by
  unfold paddedLength
  split <;> omega

/-- The padding has at most 63 zeros (R105). -/
theorem padZeroCount_le (len : Nat) : padZeroCount len ≤ 63 := by
  unfold padZeroCount
  split <;> omega

/-- Settles O57: the padded length adds up, and the parts of the padded message are the parts of the list. -/
theorem paddedMessageIsWholeBlocks : Obligations.PaddedMessageIsWholeBlocks := by
  intro marker msg
  have hsum := paddedLength_eq_add msg.length
  have hzeros := padZeroCount_le msg.length
  refine ⟨padMessage_length marker msg, paddedLength_mod _, by omega, by omega, ?message, ?marker, ?zeros,
    ?bitLength⟩
  case message => rw [padMessage_eq_append, List.take_left]
  case marker => rw [padMessage_eq_append, List.getElem?_append_right le_rfl, Nat.sub_self, paddingBytes_marker]
  case zeros =>
    intro k hk hend
    rw [padMessage_eq_append, List.getElem?_append_right hk.le, paddingBytes_zero marker (by omega) (by omega)]
  case bitLength => exact List.drop_left' (by simp; omega)

/-- Bytes stored in two runs are the bytes of one run (R108). -/
theorem storeBytes_append (t : Table) (junk : Nat → Byte) (c : GenCtx) (d1 d2 : List Byte) :
    c.storeBytes t junk (d1 ++ d2) = (c.storeBytes t junk d1).storeBytes t junk d2 := by
  simp only [storeBytes_eq_foldl, List.foldl_append]

/-- The bit length of a context is that of a message of COUNT bytes (R102 step 1, R109). -/
theorem bitLength_eq_ofNat (c : GenCtx) : c.bitLength = BitVec.ofNat 64 (8 * c.count.toNat) := by
  rw [BitVec.ofNat_mul, BitVec.ofNat_toNat, BitVec.setWidth_eq]
  rfl

/-- Padding a context stores the padding of a message of COUNT bytes (R102, R103, R109). -/
theorem pad_eq_storeBytes_paddingBytes (t : Table) (junk : Nat → Byte) (c : GenCtx) :
    c.pad t junk = c.storeBytes t junk (paddingBytes (markerByte c.tiger2) c.count.toNat) := by
  rw [pad_eq, bitLength_eq_ofNat, paddingBytes]

end Sys2Proof.Proofs
end

section
/-! SUPPORT. What the generator commands answer on a context that exists, and that only the concatenation of the
message bytes counts (R98 to R102, R108). -/

namespace Sys2Proof.Proofs
open Sys2Proof.Machine Sys2Proof.Laws

theorem exec_update (g : CtxNum) (data : List Byte) (s : State) :
    exec (.update g data) s = .next (s.acceptBytes g data) := rfl

/-- `UPDATE_BYTE` is `UPDATE` of one byte (R108). -/
theorem exec_updateByte (g : CtxNum) (b : Byte) (s : State) : exec (.updateByte g b) s = exec (.update g [b]) s := rfl

section existing
variable {s : State} {g : CtxNum} {c : GenCtx} (hc : s.ctx? g = some c)
include hc

theorem exec_genNew_existing (passes : BitVec 8) (tiger2 : Bool) : exec (.genNew g passes tiger2) s =
    .next ((s.setCtx g { c.restart with passes := clampPasses passes, tiger2 := tiger2 }).respond []) :=
  congrArg _ (onCtx_some hc _)

theorem exec_genReset_existing : exec (.genReset g) s = .next ((s.setCtx g c.restart).respond []) :=
  congrArg _ (onCtx_some hc _)

/-- Accepting bytes without a table (R133). -/
theorem acceptBytes_of_invalid (hvalid : s.sboxValid = false) (data : List Byte) :
    s.acceptBytes g data = s.raise .sboxInvalid := by
  simp [State.acceptBytes, onCtx_some hc, hvalid]

/-- Accepting bytes in a Finalized context (R134). -/
theorem acceptBytes_of_finalized (hvalid : s.sboxValid = true) (hfinal : c.finalized = true) (data : List Byte) :
    s.acceptBytes g data = s.raise .finalized := by
  simp [State.acceptBytes, onCtx_some hc, hvalid, hfinal]

/-- Accepting bytes in an Active context of a block with a table (R100, R101). -/
theorem acceptBytes_of_active (hvalid : s.sboxValid = true) (hactive : c.finalized = false) (data : List Byte) :
    s.acceptBytes g data = (s.setCtx g (c.storeBytes s.table (s.bufJunk g) data)).respond [] := by
  simp [State.acceptBytes, onCtx_some hc, hvalid, hactive]

/-- `FINALIZE` of a Finalized context answers the cached digest (R104). -/
theorem exec_finalize_finalized (hvalid : s.sboxValid = true) (hfinal : c.finalized = true) :
    exec (.finalize g) s = .next (s.respond (packBytes (c.digest (s.digJunk g)))) := by
  simp [exec, execFinalize, onCtx_some hc, hvalid, hfinal]

/-- `FINALIZE` of an Active context pads and seals it and answers the new digest (R102). -/
theorem exec_finalize_active (hvalid : s.sboxValid = true) (hactive : c.finalized = false) {done : GenCtx}
    (hdone : (c.pad s.table (s.bufJunk g)).seal s.table (s.bufJunk g) = done) :
    exec (.finalize g) s = .next ((s.setCtx g done).respond (packBytes (done.digest (s.digJunk g)))) := by
  simp [exec, execFinalize, onCtx_some hc, hvalid, hactive, hdone]

end existing

theorem acceptBytes_of_absent {s : State} {g : CtxNum} (hnone : s.ctx? g = none) (data : List Byte) :
    s.acceptBytes g data = s.raise .illegalCmd :=
  onCtx_none hnone _

/-- The clamp of R98 as the comparison of the numbers. -/
theorem clampPasses_eq_ite (p : BitVec 8) : clampPasses p = if p.toNat < 3 then 3 else p := rfl

/-- Settles O33: the context is restarted with the clamped pass count and the mode, and an absent one is refused. -/
theorem genNewRestartsContext : Obligations.GenNewRestartsContext := by
  intro s g passes tiger2
  refine ⟨fun c hc => ?_, fun hnone => congrArg _ (onCtx_none hnone _)⟩
  rw [exec_genNew_existing hc, clampPasses_eq_ite]
  rfl

/-- Settles O34: the context is restarted, and an absent one is refused. -/
theorem genResetRestartsContext : Obligations.GenResetRestartsContext := by
  intro s g
  exact ⟨fun c hc => exec_genReset_existing hc, fun hnone => congrArg _ (onCtx_none hnone _)⟩

/-- Settles O37: an `UPDATE` leaves the context or stores the bytes, and 64 bytes fit the first block. -/
theorem firstBlockIsNotCompressedEarly : Obligations.FirstBlockIsNotCompressedEarly := by
  intro s t g c c' data hc hcount hlen ht hc'
  rcases exec_ctx?_cases ht hc hc' with rfl | hchange
  · rfl
  · cases hchange with
    | update _ _ _ =>
      have hfill : c.fill = 0 := by simp [GenCtx.fill, hcount]
      exact storeBytes_st_of_fits _ _ (by simp [GenCtx.fullPending, hcount]) (by omega)

/-- After a refusal a fault is recorded (R18, R131). -/
theorem raise_fault_ne_zero (s : State) (e : ErrCode) : (s.raise e).fault ≠ 0 := by
  rw [raise_fault]
  split
  · exact code_ne_zero e
  · assumption

/-- The registers that R108 speaks of: the contexts, the table, `SBOX_VALID` and `FAULT`. -/
def SameRegisters (s t : State) : Prop :=
  s.ctxs = t.ctxs ∧ s.tbl = t.tbl ∧ s.sboxValid = t.sboxValid ∧ s.fault = t.fault

/-- A refusal repeated is a refusal but for the response. -/
theorem sameRegisters_raise_raise (s : State) (e : ErrCode) : SameRegisters (s.raise e) ((s.raise e).raise e) :=
  ⟨rfl, rfl, rfl, (if_neg (raise_fault_ne_zero s e)).symm⟩

/-- Accepting bytes in two runs leaves what one run leaves, whether they are refused or stored (R108). -/
theorem acceptBytes_append (s : State) (g : CtxNum) (d1 d2 : List Byte) :
    SameRegisters (s.acceptBytes g (d1 ++ d2)) ((s.acceptBytes g d1).acceptBytes g d2) := by
  cases hctx : s.ctx? g with
  | none =>
    rw [acceptBytes_of_absent hctx, acceptBytes_of_absent hctx, acceptBytes_of_absent (s := s.raise _) hctx]
    exact sameRegisters_raise_raise s _
  | some c =>
    cases hvalid : s.sboxValid with
    | false =>
      rw [acceptBytes_of_invalid hctx hvalid, acceptBytes_of_invalid hctx hvalid,
        acceptBytes_of_invalid (s := s.raise _) hctx hvalid]
      exact sameRegisters_raise_raise s _
    | true =>
      cases hfinal : c.finalized with
      | true =>
        rw [acceptBytes_of_finalized hctx hvalid hfinal, acceptBytes_of_finalized hctx hvalid hfinal,
          acceptBytes_of_finalized (s := s.raise _) hctx hvalid hfinal]
        exact sameRegisters_raise_raise s _
      | false =>
        obtain ⟨mid, hmid⟩ : ∃ d, c.storeBytes s.table (s.bufJunk g) d1 = d := ⟨_, rfl⟩
        have hctx' : ((s.setCtx g mid).respond []).ctx? g = some mid := ctx?_setCtx_same hctx mid
        have hactive' : mid.finalized = false := by rw [← hmid, storeBytes_finalized, hfinal]
        rw [acceptBytes_of_active hctx hvalid hfinal, acceptBytes_of_active hctx hvalid hfinal, storeBytes_append, hmid,
          acceptBytes_of_active hctx' hvalid hactive']
        exact ⟨(List.set_set _).symm, rfl, rfl, rfl⟩

/-- Settles O38: accepting bytes in two runs is accepting them in one, and `UPDATE_BYTE` accepts one byte. -/
theorem chunkingDoesNotMatter : Obligations.ChunkingDoesNotMatter := by
  refine ⟨fun s s1 s2 t g d1 d2 h1 h2 ht => ?_, fun s g b => exec_updateByte g b s⟩
  obtain rfl := Host.Outcome.next.inj h1
  obtain rfl := Host.Outcome.next.inj h2
  obtain rfl := Host.Outcome.next.inj ht
  exact acceptBytes_append s g d1 d2

end Sys2Proof.Proofs
end

section
/-! SUPPORT. Where stored bytes lie in `BUF` (R33, R97, R101), and so the effect of `UPDATE_BYTE` and `UPDATE` on an
Active context. -/

namespace Sys2Proof.Proofs
open Sys2Proof.Machine Sys2Proof.Laws

section places
variable (t : Table) (junk : Nat → Byte)

/-- An address that no stored byte takes keeps its byte (R33). -/
theorem lookup_storeBytes_of_untaken {c : GenCtx} {bs : List Byte} {a : Nat}
    (h : ∀ k < bs.length, a ≠ (c.fill + k) % 64) : (c.storeBytes t junk bs).buf.lookup a = c.buf.lookup a := by
  induction bs generalizing c with
  | nil => rfl
  | cons b bs ih =>
    have hhead : a ≠ c.fill := by simpa [Nat.mod_eq_of_lt (fill_lt c)] using h 0 (Nat.succ_pos _)
    have htail : ∀ k < bs.length, a ≠ ((c.storeByte t junk b).fill + k) % 64 := fun k hk => by
      rw [fill_storeByte, Nat.mod_add_mod, Nat.add_assoc, Nat.add_comm 1 k]
      exact h (k + 1) (Nat.succ_lt_succ hk)
    rw [storeBytes_cons, ih htail, storeByte_buf, lookup_write, if_neg hhead]

/-- A stored byte that at most 63 bytes follow lies at its place (R33). -/
theorem lookup_storeBytes_of_last {c : GenCtx} {bs : List Byte} {k : Nat} (hk : k < bs.length)
    (hlast : bs.length ≤ k + 64) : (c.storeBytes t junk bs).buf.lookup ((c.fill + k) % 64) = bs[k]? := by
  induction bs generalizing c k with
  | nil => cases hk
  | cons b bs ih =>
    simp only [List.length_cons] at hk hlast
    rw [storeBytes_cons]
    have hlt := fill_lt c
    cases k with
    | zero =>
      have huntaken : ∀ k < bs.length, (c.fill + 0) % 64 ≠ ((c.storeByte t junk b).fill + k) % 64 := fun k hk => by
        rw [fill_storeByte]
        omega
      rw [lookup_storeBytes_of_untaken t junk huntaken, storeByte_buf, lookup_write, if_pos (by omega)]
      rfl
    | succ k =>
      have hplace : (c.fill + (k + 1)) % 64 = ((c.storeByte t junk b).fill + k) % 64 := by
        rw [fill_storeByte]
        omega
      rw [hplace, ih (by omega) (by omega), List.getElem?_cons_succ]

end places

/-- A place counted from COUNT is the place counted from the fill (R19, R33). -/
theorem count_add_mod (c : GenCtx) (k : Nat) : (c.count.toNat + k) % 64 = (c.fill + k) % 64 :=
  (Nat.mod_add_mod c.count.toNat 64 k).symm

/-- Settles O35: `UPDATE_BYTE` is one byte-store step on the context. -/
theorem updateByteStoresOneByte : Obligations.UpdateByteStoresOneByte := by
  intro s g c b hc hvalid hactive
  refine ⟨c.storeByte s.table (s.bufJunk g) b, ?_, storeByte_count _ _ _ _, storeByte_passes _ _ _ _,
    storeByte_tiger2 _ _ _ _, (storeByte_finalized _ _ _ _).trans hactive, storeByte_dig _ _ _ _, ?_, fun a => ?_⟩
  · rw [exec_updateByte, exec_update, acceptBytes_of_active hc hvalid hactive, storeBytes_cons, storeBytes_nil]
    rfl
  · rw [storeByte_st]
    simp only [GenCtx.fullPending, Bool.and_eq_true, decide_eq_true_eq]
    rfl
  · rw [storeByte_buf, lookup_write]
    rfl

/-- Settles O36: the registers and the places of the stored bytes, each by its law of `storeBytes`. -/
theorem updateAcceptsEveryByte : Obligations.UpdateAcceptsEveryByte := by
  intro s g c data hc hvalid hactive
  refine ⟨c.storeBytes s.table (s.bufJunk g) data, ?_, storeBytes_count _ _ _ _, storeBytes_passes _ _ _ _,
    storeBytes_tiger2 _ _ _ _, (storeBytes_finalized _ _ _ _).trans hactive, storeBytes_dig _ _ _ _, ?_,
    fun k hk hlast => ?_, fun a ha => ?_⟩
  · rw [exec_update, acceptBytes_of_active hc hvalid hactive]
    rfl
  · rintro rfl
    exact storeBytes_nil _ _ c
  · rw [count_add_mod, lookup_storeBytes_of_last _ _ hk hlast]
  · exact lookup_storeBytes_of_untaken _ _ fun k hk => count_add_mod c k ▸ ha k hk

end Sys2Proof.Proofs
end

section
/-! SUPPORT. `FINALIZE`: the last padded block in `BUF` (R102, R105), the digest as the bytes of the state (R116), and
the data words of the response (R50, R117). -/

namespace Sys2Proof.Proofs
open Sys2Proof.Machine Sys2Proof.Laws

/-- Everything that the padding leaves in `BUF`: with fill up to 55 the bytes of the message stay, and the marker, zeros
and bit length follow them; from fill 56 on the last block holds zeros and bit length alone, save a marker (R105). -/
theorem lookup_pad_buf (t : Table) (junk : Nat → Byte) (c : GenCtx) (a : Nat) :
    (c.pad t junk).buf.lookup a =
      if 64 ≤ a ∨ (a < c.fill ∧ c.fill ≤ 55) then c.buf.lookup a
      else if 56 ≤ a then some (byteOf (8 * c.count) (a - 56))
      else if a = c.fill then some (markerByte c.tiger2)
      else some 0 := by
  have hlen := paddingBytes_length (markerByte c.tiger2) c.count.toNat
  have hlt := fill_lt c
  have hzeros : padZeroCount c.count.toNat = if c.fill ≤ 55 then 55 - c.fill else 119 - c.fill := rfl
  rw [pad_eq_storeBytes_paddingBytes]
  set bs := paddingBytes (markerByte c.tiger2) c.count.toNat with hbs
  by_cases hkept : 64 ≤ a ∨ (a < c.fill ∧ c.fill ≤ 55)
  · rw [if_pos hkept]
    refine lookup_storeBytes_of_untaken t junk fun k hk => ?_
    split at hzeros <;> omega
  · rw [if_neg hkept]
    -- The byte of the padding that ends up at address `a`: the last one whose place it is.
    obtain ⟨k, hk, hlast, hplace⟩ : ∃ k < bs.length, k + 64 = bs.length + a ∧ (c.fill + k) % 64 = a :=
      ⟨bs.length + a - 64, by split at hzeros <;> omega⟩
    have hbyte := lookup_storeBytes_of_last t junk (c := c) hk (by omega)
    rw [hplace] at hbyte
    rw [hbyte, hbs]
    by_cases hbits : 56 ≤ a
    · rw [if_pos hbits, show k = padZeroCount c.count.toNat + 1 + (a - 56) by omega,
        paddingBytes_bitLength _ _ (by omega), ← bitLength_eq_ofNat, GenCtx.bitLength]
    · rw [if_neg hbits]
      by_cases hmarker : a = c.fill
      · rw [if_pos hmarker, show k = 0 by split at hzeros <;> omega, paddingBytes_marker]
      · rw [if_neg hmarker, paddingBytes_zero _ (by split at hzeros <;> omega) (by omega)]

/-- The serialisation writes the 24 bytes of `DIG` and nothing beyond (R34, R116). -/
theorem lookup_serialise_of_ge (dig : Memory) (st : Words3) {a : Nat} (ha : 24 ≤ a) :
    (serialise dig st).lookup a = dig.lookup a := by
  simp only [serialise, lookup_write8]
  rw [if_neg (by omega), if_neg (by omega), if_neg (by omega)]

/-- The 24 bytes of a digest, byte by byte (R116). -/
theorem stateBytes_eq_map (st : Words3) :
    stateBytes st = (List.range 24).map fun a => byteOf (Words3.get st (a / 8)) (a % 8) := rfl

/-- The digest of a context whose `DIG` holds its state (R115, R116). -/
theorem digest_of_serialised {c : GenCtx} (h : Serialised c.dig c.st) (digJunk : Nat → Byte) :
    c.digest digJunk = stateBytes c.st := by
  rw [stateBytes_eq_map, GenCtx.digest]
  refine List.map_congr_left fun a ha => ?_
  have ha24 : a < 24 := List.mem_range.mp ha
  have hbyte := h (a / 8) (a % 8) (by omega) (by omega)
  rw [Nat.div_add_mod] at hbyte
  simp [Memory.read, hbyte]

/-- Four consecutive bytes of a word, packed (R31, R48). -/
theorem packWord_bytes (w : Word) (j : Nat) :
    packWord (byteOf w j) (byteOf w (j + 1)) (byteOf w (j + 2)) (byteOf w (j + 3)) = w.extractLsb' (8 * j) 32 := by
  simp only [packWord, byteOf]
  rw [BitVec.extractLsb'_append_extractLsb'_eq_extractLsb' (by omega),
    BitVec.extractLsb'_append_extractLsb'_eq_extractLsb' (by omega),
    BitVec.extractLsb'_append_extractLsb'_eq_extractLsb' (by omega)]

/-- The data words of a digest are the halves of the state words, low half first (R50, R117). -/
theorem packBytes_stateBytes (st : Words3) : packBytes (stateBytes st) =
    (List.range 6).map fun d => (Words3.get st (d / 2)).extractLsb' (32 * (d % 2)) 32 := by
  calc packBytes (stateBytes st)
      = (List.range 6).map fun d =>
          let w := Words3.get st (d / 2)
          let j := 4 * (d % 2)
          packWord (byteOf w j) (byteOf w (j + 1)) (byteOf w (j + 2)) (byteOf w (j + 3)) := rfl
    _ = _ := List.map_congr_left fun d _ => by simp only [packWord_bytes, ← Nat.mul_assoc]

/-- Settles O39: padding and sealing, register by register. -/
theorem finalizePadsAndSeals : Obligations.FinalizePadsAndSeals := by
  intro s g c hc hvalid hactive
  obtain ⟨padded, hpadded⟩ : ∃ d, c.pad s.table (s.bufJunk g) = d := ⟨_, rfl⟩
  obtain ⟨done, hdone⟩ : ∃ d, padded.seal s.table (s.bufJunk g) = d := ⟨_, rfl⟩
  have hcount : done.count.toNat = paddedLength c.count.toNat % 2 ^ 64 := by
    rw [← hdone, seal_count, ← hpadded, pad_count, paddedLength_eq_add]
  have hser : Serialised done.dig done.st := hdone ▸ serialised_seal _ _ _
  have hblock : done.block (s.bufJunk g) = padded.block (s.bufJunk g) := block_congr _ (by rw [← hdone, seal_buf])
  refine ⟨done, _, exec_finalize_active hc hvalid hactive (hpadded ▸ hdone), ?finalized, ?passes, ?tiger2, ?count,
    ?aligned, ?state, hser, ?frame, ?buffer, ?words, ?halves⟩
  case finalized => rw [← hdone, seal_finalized]
  case passes => rw [← hdone, seal_passes, ← hpadded, pad_passes]
  case tiger2 => rw [← hdone, seal_tiger2, ← hpadded, pad_tiger2]
  case count => exact BitVec.eq_of_toNat_eq (hcount.trans (BitVec.toNat_ofNat _ _).symm)
  case aligned => have := paddedLength_mod c.count.toNat; omega
  case state => rw [hblock, ← hdone, seal_st, ← hpadded, pad_st, pad_passes]
  case frame => intro a ha; rw [← hdone, seal_dig, lookup_serialise_of_ge _ _ ha, ← hpadded, pad_dig]
  case buffer => intro a; rw [← hdone, seal_buf, ← hpadded, lookup_pad_buf]; rfl
  case words => rw [packBytes_length, digest_length]
  case halves => intro d hd; rw [digest_of_serialised hser, packBytes_stateBytes]; simp [hd]

/-- Settles O40: after any `FINALIZE` that succeeds the context is Finalized, and the next answers the cached digest. -/
theorem repeatedFinalizeChangesNothing : Obligations.RepeatedFinalizeChangesNothing := by
  intro s g c hc hvalid
  have hlength (d : GenCtx) : (packBytes (d.digest (s.digJunk g))).length = 6 := by
    rw [packBytes_length, digest_length]
  refine ⟨fun hfinal => ⟨_, exec_finalize_finalized hc hvalid hfinal, hlength c, fun k hk => ?_⟩, ?_⟩
  · rw [← digest_length (s.digJunk g) c, unpackBytes_packBytes]
    simp [GenCtx.digest, hk]
  · cases hfinal : c.finalized with
    | true =>
      have hc1 : (s.respond (packBytes (c.digest (s.digJunk g)))).ctx? g = some c := hc
      exact ⟨_, _, exec_finalize_finalized hc hvalid hfinal, rfl, hlength c,
        exec_finalize_finalized hc1 hvalid hfinal⟩
    | false =>
      obtain ⟨done, hdone⟩ : ∃ d, (c.pad s.table (s.bufJunk g)).seal s.table (s.bufJunk g) = d := ⟨_, rfl⟩
      have hdone_final : done.finalized = true := by rw [← hdone, seal_finalized]
      exact ⟨_, _, exec_finalize_active hc hvalid hfinal hdone, rfl, hlength done,
        exec_finalize_finalized (ctx?_setCtx_same hc done) hvalid hdone_final⟩

end Sys2Proof.Proofs
end

section
/-! SUPPORT. The digest of a message (R110, R111): storing whole blocks folds `Compress` over them, and the hash
commands store the padded message in a restarted context. -/

namespace Sys2Proof.Proofs
open Sys2Proof.Machine Sys2Proof.Laws

/-- The compression state once the full buffer that waits, if one does, has been compressed (R97). -/
def flushedState (t : Table) (junk : Nat → Byte) (c : GenCtx) : Words3 :=
  if c.fullPending then compress t c.st (c.block junk) c.passes.toNat else c.st

section blocks
variable (t : Table) (junk : Nat → Byte)

/-- Below 2^64 the counter is the number of bytes (R19). -/
theorem count_storeBytes {c : GenCtx} {bs : List Byte} (h : c.count.toNat + bs.length < 2 ^ 64) :
    (c.storeBytes t junk bs).count.toNat = c.count.toNat + bs.length := by
  rw [storeBytes_count, BitVec.toNat_add, BitVec.toNat_ofNat, Nat.add_mod_mod, Nat.mod_eq_of_lt h]

/-- The fill goes around the buffer, also where the counter wraps (R19, R33). -/
theorem fill_storeBytes (c : GenCtx) (bs : List Byte) :
    (c.storeBytes t junk bs).fill = (c.fill + bs.length) % 64 := by
  simp only [GenCtx.fill, storeBytes_count, BitVec.toNat_add, BitVec.toNat_ofNat]
  omega

/-- A full buffer waits at every block boundary but the first (R97). -/
theorem fullPending_of_count {c : GenCtx} (hcount : 0 < c.count.toNat) (hfill : c.fill = 0) :
    c.fullPending = true := by
  have hne : c.count ≠ 0 := fun h => by simp [h] at hcount
  rw [GenCtx.fullPending, Bool.and_eq_true, decide_eq_true_eq, decide_eq_true_eq]
  exact ⟨hne, hfill⟩

/-- The byte-store step flushes before it stores (R97). -/
theorem storeByte_st_eq_flushed (c : GenCtx) (b : Byte) : (c.storeByte t junk b).st = flushedState t junk c :=
  storeByte_st t junk c b

/-- Sealing with a full buffer flushes (R102 step 6). -/
theorem seal_st_eq_flushed {c : GenCtx} (h : c.fullPending = true) :
    (c.seal t junk).st = flushedState t junk c := by
  rw [seal_st, flushedState, if_pos h]

/-- A word of a buffer filled with 64 bytes (R31, R96). -/
theorem read8_writeBytes_block (m : Memory) {bs : List Byte} (hlen : bs.length = 64) {k : Nat} (hk : k < 8) :
    (m.writeBytes 0 bs).read8 junk (8 * k) = seedWord bs k := by
  refine word_ext fun j hj => ?_
  rw [byteOf_read8 _ _ _ hj, seedWord, byteOf_wordFromBytes _ hj, Memory.read, lookup_writeBytes, if_pos (by omega)]
  simp [seedByte, hlen, show 8 * k + j < 64 by omega]

section block
variable {c : GenCtx} {bs : List Byte} (hfill : c.fill = 0) (hlen : bs.length = 64)
include hfill hlen

theorem block_storeBytes_block : (c.storeBytes t junk bs).block junk = seedBlock bs := by
  have hword : ∀ k < 8, seedWord bs k = (c.storeBytes t junk bs).buf.read8 junk (8 * k) := fun k hk => by
    rw [storeBytes_buf_of_fits t junk (by omega), hfill, read8_writeBytes_block junk _ hlen hk]
  simp (disch := decide) only [seedBlock, hword]
  rfl

/-- The first byte of a block flushes, and the other 63 leave the state (R97). -/
theorem st_storeBytes_block : (c.storeBytes t junk bs).st = flushedState t junk c := by
  cases bs with
  | nil => cases hlen
  | cons b bs =>
    rw [List.length_cons] at hlen
    have hfill1 : (c.storeByte t junk b).fill = 1 := by rw [fill_storeByte, hfill]
    rw [storeBytes_cons, storeBytes_st_of_fits t junk (fullPending_of_fill (by omega)) (by omega),
      storeByte_st_eq_flushed]

/-- Storing a whole block leaves it waiting, if the counter does not wrap to 0 (R97, R109). -/
theorem flushed_storeBytes_block (hwrap : c.count.toNat + 64 < 2 ^ 64) :
    flushedState t junk (c.storeBytes t junk bs) =
      compress t (flushedState t junk c) (seedBlock bs) c.passes.toNat := by
  have hcount := count_storeBytes t junk (c := c) (bs := bs) (by omega)
  have hpending : (c.storeBytes t junk bs).fullPending = true :=
    fullPending_of_count (by omega) (by rw [fill_storeBytes, hfill, hlen])
  rw [flushedState, if_pos hpending, st_storeBytes_block t junk hfill hlen, block_storeBytes_block t junk hfill hlen,
    storeBytes_passes]

end block

/-- Storing whole blocks folds `Compress` over them, the last one still waiting (R97, R111). -/
theorem flushed_storeBytes_blocks (n : Nat) {c : GenCtx} {bs : List Byte} (hfill : c.fill = 0)
    (hlen : bs.length = 64 * n) (hwrap : c.count.toNat + 64 * n < 2 ^ 64) :
    flushedState t junk (c.storeBytes t junk bs) =
      (messageBlocks n bs).foldl (fun st blk => compress t st blk c.passes.toNat) (flushedState t junk c) := by
  induction n generalizing c bs with
  | zero =>
    obtain rfl := List.length_eq_zero_iff.mp hlen
    rfl
  | succ n ih =>
    have hfirst : (bs.take 64).length = 64 := by rw [List.length_take]; omega
    have hcount := count_storeBytes t junk (c := c) (bs := bs.take 64) (by omega)
    have hfill' : (c.storeBytes t junk (bs.take 64)).fill = 0 := by rw [fill_storeBytes, hfill, hfirst]
    conv_lhs => rw [← List.take_append_drop 64 bs, storeBytes_append]
    rw [ih hfill' (by rw [List.length_drop]; omega) (by omega), storeBytes_passes,
      flushed_storeBytes_block t junk hfill hfirst (by omega), messageBlocks, List.foldl_cons]

/-- A message stored in a restarted context and padded is the padded message stored (R102, R105). -/
theorem pad_storeBytes_restart (c : GenCtx) {msg : List Byte} (hlen : msg.length < 2 ^ 61) :
    (c.restart.storeBytes t junk msg).pad t junk =
      c.restart.storeBytes t junk (padMessage (markerByte c.tiger2) msg) := by
  have hcount : (c.restart.storeBytes t junk msg).count.toNat = msg.length := by
    rw [count_storeBytes t junk (by simp; omega)]
    simp
  rw [pad_eq_storeBytes_paddingBytes, hcount, storeBytes_tiger2, restart_tiger2, ← storeBytes_append,
    padMessage_eq_append]

/-- A restarted context that is fed a message, padded and sealed holds the state of the message (R111). -/
theorem seal_pad_storeBytes_st (c : GenCtx) {msg : List Byte} (hlen : msg.length < 2 ^ 61) :
    (((c.restart.storeBytes t junk msg).pad t junk).seal t junk).st =
      messageState t c.passes.toNat (markerByte c.tiger2) msg := by
  have hsum := paddedLength_eq_add msg.length
  have hzeros := padZeroCount_le msg.length
  have hblocks : (padMessage (markerByte c.tiger2) msg).length = 64 * (paddedLength msg.length / 64) := by
    have := paddedLength_mod msg.length
    rw [padMessage_length]
    omega
  have hstart : flushedState t junk c.restart = Config.iv := rfl
  have hpad := pad_storeBytes_restart t junk c hlen
  have hpending : ((c.restart.storeBytes t junk msg).pad t junk).fullPending = true := by
    refine fullPending_of_count ?_ (pad_fill t junk _)
    rw [hpad, count_storeBytes t junk (by rw [padMessage_length]; simp; omega), padMessage_length]
    omega
  rw [seal_st_eq_flushed t junk hpending, hpad,
    flushed_storeBytes_blocks t junk _ rfl hblocks (by simp; omega), hstart]
  rfl

end blocks

/-- What the hash commands leave and answer: the context restarted, fed the message, padded and sealed (R110). -/
theorem execAll_hashCommands {s : State} {g : CtxNum} {c fed done : GenCtx} {msg : List Byte} (hc : s.ctx? g = some c)
    (hvalid : s.sboxValid = true) (hfed : c.restart.storeBytes s.table (s.bufJunk g) msg = fed)
    (hdone : (fed.pad s.table (s.bufJunk g)).seal s.table (s.bufJunk g) = done) :
    ∃ t, execAll (hashCommands g msg) s = .next t ∧ t.ctx? g = some done ∧
      t.out = s.out ++ [0, 0, 0] ++ packBytes (done.digest (s.digJunk g)) := by
  have hactive : fed.finalized = false := by rw [← hfed, storeBytes_finalized, restart_finalized]
  have hreset := exec_genReset_existing hc
  set s1 := (s.setCtx g c.restart).respond []
  have hc1 : s1.ctx? g = some c.restart := ctx?_setCtx_same hc _
  have hupdate : exec (.update g msg) s1 = .next ((s1.setCtx g fed).respond []) := by
    rw [exec_update, acceptBytes_of_active hc1 hvalid rfl, ← hfed]
    rfl
  set s2 := (s1.setCtx g fed).respond []
  have hc2 : s2.ctx? g = some fed := ctx?_setCtx_same hc1 fed
  have hfinalize := exec_finalize_active hc2 hvalid hactive hdone
  have hrun : execAll (hashCommands g msg) s =
      .next ((s2.setCtx g done).respond (packBytes (done.digest (s2.digJunk g)))) := by
    simp only [hashCommands, execAll, hreset, hupdate, hfinalize]
  have hout : s2.out = s.out ++ [0, 0] := List.append_assoc s.out [statusWord 0] [statusWord 0]
  refine ⟨_, hrun, ctx?_setCtx_same hc2 done, ?_⟩
  calc s2.out ++ statusWord 0 :: packBytes (done.digest (s2.digJunk g))
      = s.out ++ [0, 0] ++ ([0] ++ packBytes (done.digest (s.digJunk g))) := by rw [hout]; rfl
    _ = s.out ++ [0, 0, 0] ++ packBytes (done.digest (s.digJunk g)) := by simp

/-- Settles O55: the three commands complete, the state is that of the message, and the answer serialises it. -/
theorem hashCommandsComputeTheDigest : Obligations.HashCommandsComputeTheDigest := by
  intro s g c msg hc hvalid hlen
  obtain ⟨fed, hfed⟩ : ∃ d, c.restart.storeBytes s.table (s.bufJunk g) msg = d := ⟨_, rfl⟩
  obtain ⟨done, hdone⟩ : ∃ d, (fed.pad s.table (s.bufJunk g)).seal s.table (s.bufJunk g) = d := ⟨_, rfl⟩
  have hser : Serialised done.dig done.st := hdone ▸ serialised_seal _ _ _
  obtain ⟨t, ht, hctx, hout⟩ := execAll_hashCommands hc hvalid hfed hdone
  refine ⟨t, done, ht, hctx, ?_, ?_, ?_⟩
  · rw [← hdone, seal_finalized]
  · rw [← hdone, ← hfed, seal_pad_storeBytes_st _ _ c hlen]
  · rw [hout, digest_of_serialised hser]

/-- Settles O56: in both states the answer is the digest of the message, a function of what the two share (R111). -/
theorem digestDependsOnMessageAndModeAlone : Obligations.DigestDependsOnMessageAndModeAlone := by
  intro s s' t t' g g' c c' msg hc hc' hvalid hvalid' htable hpasses htiger2 hlen ht ht'
  obtain ⟨u, d, hu, _, _, hst, hout⟩ := hashCommandsComputeTheDigest s g c msg hc hvalid hlen
  obtain ⟨u', d', hu', _, _, hst', hout'⟩ := hashCommandsComputeTheDigest s' g' c' msg hc' hvalid' hlen
  obtain rfl := Host.Outcome.next.inj (hu.symm.trans ht)
  obtain rfl := Host.Outcome.next.inj (hu'.symm.trans ht')
  have hdigest : d.st = d'.st := by rw [hst, hst', htable, hpasses, htiger2]
  refine ⟨[0, 0, 0] ++ packBytes (stateBytes d.st), ?_, ?_⟩
  · rw [hout, List.append_assoc]
  · rw [hout', ← hdigest, List.append_assoc]

end Sys2Proof.Proofs
end

section
/-! SUPPORT. The two read-only commands (R120, R121): what `DIGEST_READ` answers on a Finalized context, that it agrees
with `FINALIZE` (R123), and the fields of the status image. -/

namespace Sys2Proof.Proofs
open Sys2Proof.Machine Sys2Proof.Laws

/-- `DIGEST_READ` of a byte of a Finalized context answers that byte of the cached digest (R120). -/
theorem exec_digestRead_finalized {s : State} {g : CtxNum} {c : GenCtx} {idx : BitVec 5} (hc : s.ctx? g = some c)
    (hfinal : c.finalized = true) (hidx : idx.toNat < 24) :
    exec (.digestRead g idx) s = .next (s.respond [(c.dig.read (s.digJunk g) idx.toNat).setWidth 32]) := by
  simp [exec, execDigestRead, onCtx_some hc, hfinal, Nat.not_le.mpr hidx]

/-- Byte `a` of `DIG`, once it holds the state: byte `a mod 8` of state word `a div 8` (R34, R116). -/
theorem read_of_serialised {dig : Memory} {st : Words3} (h : Serialised dig st) (digJunk : Nat → Byte) {a : Nat}
    (ha : a < 24) : dig.read digJunk a = byteOf (Words3.get st (a / 8)) (a % 8) := by
  have hbyte := h (a / 8) (a % 8) (by omega) (by omega)
  rw [Nat.div_add_mod] at hbyte
  rw [Memory.read, hbyte, Option.getD_some]

/-- Settles O42: the command answers the cached byte, and by the invariant the cache serialises the state. -/
theorem digestReadReturnsStateByte : Obligations.DigestReadReturnsStateByte := by
  intro s g c idx hinv hc hfinal hidx
  have hser : Serialised c.dig c.st := (hinv.ctxs_inv c (ctx?_mem hc)).finalized_dig hfinal
  rw [exec_digestRead_finalized hc hfinal hidx, read_of_serialised hser _ hidx]
  rfl

/-- `FINALIZE` in a block with a table leaves a Finalized context and answers what its `DIG` holds (R102, R104). -/
theorem exec_finalize_answers_digest {s : State} {g : CtxNum} {c : GenCtx} (hc : s.ctx? g = some c)
    (hvalid : s.sboxValid = true) : ∃ t d, exec (.finalize g) s = .next t ∧ t.ctx? g = some d ∧ d.finalized = true ∧
      t.out = s.out ++ statusWord 0 :: packBytes (d.digest (t.digJunk g)) := by
  cases hfinal : c.finalized with
  | true => exact ⟨_, c, exec_finalize_finalized hc hvalid hfinal, hc, hfinal, rfl⟩
  | false =>
    obtain ⟨done, hdone⟩ : ∃ d, (c.pad s.table (s.bufJunk g)).seal s.table (s.bufJunk g) = d := ⟨_, rfl⟩
    have hdone_final : done.finalized = true := by rw [← hdone, seal_finalized]
    exact ⟨_, done, exec_finalize_active hc hvalid hfinal hdone, ctx?_setCtx_same hc done, hdone_final, rfl⟩

/-- The data words of a digest hold, as byte `a`, what `DIG` holds at address `a` (R50, R117). -/
theorem unpackBytes_digest (digJunk : Nat → Byte) (c : GenCtx) {a : Nat} (ha : a < 24) :
    (unpackBytes 24 (packBytes (c.digest digJunk)))[a]? = some (c.dig.read digJunk a) := by
  rw [← digest_length digJunk c, unpackBytes_packBytes]
  simp [GenCtx.digest, ha]

/-- Settles O41: both commands answer what `DIG` of the Finalized context holds. -/
theorem digestReadAgreesWithFinalize : Obligations.DigestReadAgreesWithFinalize := by
  intro s g c hc hvalid
  obtain ⟨t, d, ht, hd, hfinal, hout⟩ := exec_finalize_answers_digest hc hvalid
  exact ⟨t, _, ht, hout, fun idx hidx => ⟨_, unpackBytes_digest _ d hidx, exec_digestRead_finalized hd hfinal hidx⟩⟩

/-- `STATUS` of a context that exists answers its status image (R121). -/
theorem exec_status_existing {s : State} {g : CtxNum} {c : GenCtx} (hc : s.ctx? g = some c) :
    exec (.status g) s = .next (s.respond [statusImage s c]) :=
  congrArg _ (onCtx_some hc _)

/-- A bit is the value of the one-bit field at its place. -/
theorem getLsbD_of_extract_one {n k : Nat} {w : BitVec n} {b : Bool} (h : w.extractLsb' k 1 = BitVec.ofBool b) :
    w.getLsbD k = b :=
  BitVec.ofBool_eq_iff_eq.mp (extract_one_eq_ofBool w k ▸ h)

/-- Settles O43: each field is found in the image by passing over the fields below it. -/
theorem statusShowsTheFlags : Obligations.StatusShowsTheFlags := by
  intro s g
  refine ⟨fun c hc => ⟨statusImage s c, exec_status_existing hc, ?fault, getLsbD_of_extract_one ?valid,
    getLsbD_of_extract_one ?finalized, getLsbD_of_extract_one ?tiger2, getLsbD_of_extract_one ?zero, ?passes, ?fill,
    ?zeros⟩, fun hnone => congrArg _ (onCtx_none hnone _)⟩
  all_goals
    rw [statusImage]
    repeat rw [BitVec.extractLsb'_append_eq_of_le (by omega)]
  case fill => exact (congrArg BitVec.toNat (extract_append_low _ _)).trans (Nat.mod_eq_of_lt (fill_lt c))
  case zeros => rfl
  all_goals exact extract_append_low _ _

end Sys2Proof.Proofs
end

section
/-! SUPPORT. The functions of a digest that the host computes: order, text form and scalar hash (R125 to R127). -/

namespace Sys2Proof.Proofs
open Sys2Proof.Machine Sys2Proof.Laws

/-- Index `i` decides for `d`: the bytes before it are equal, and there `d` has the smaller byte (R125). -/
def SmallerAt (d d' : List Byte) (i : Nat) : Prop :=
  ∃ a b, (∀ j, j < i → d[j]? = d'[j]?) ∧ d[i]? = some a ∧ d'[i]? = some b ∧ a.toNat < b.toNat

theorem smallerAt_lt_length {d d' : List Byte} {i : Nat} (h : SmallerAt d d' i) : i < d.length := by
  obtain ⟨a, b, -, ha, -, -⟩ := h
  exact (List.getElem?_eq_some_iff.mp ha).1

theorem smallerAt_cons_zero (a b : Byte) (as bs : List Byte) :
    SmallerAt (a :: as) (b :: bs) 0 ↔ a.toNat < b.toNat := by
  simp [SmallerAt]

theorem smallerAt_cons_succ (a b : Byte) (as bs : List Byte) (i : Nat) :
    SmallerAt (a :: as) (b :: bs) (i + 1) ↔ a = b ∧ SmallerAt as bs i := by
  simp only [SmallerAt, Nat.forall_lt_succ_left, List.getElem?_cons_zero, List.getElem?_cons_succ, Option.some.injEq,
    exists_and_left, and_assoc]

/-- The order compares the first bytes, and goes on when they are equal; so some index decides (R125). -/
theorem digestLt_iff_smallerAt (d d' : List Byte) : digestLt d d' = true ↔ ∃ i, SmallerAt d d' i := by
  fun_induction digestLt d d' with
  | case1 as a bs ih =>
    rw [ih, ← Nat.or_exists_add_one (p := SmallerAt (a :: as) (a :: bs))]
    simp [smallerAt_cons_zero, smallerAt_cons_succ]
  | case2 a as b bs hne =>
    rw [← Nat.or_exists_add_one]
    simp [smallerAt_cons_zero, smallerAt_cons_succ, hne, BitVec.lt_def]
  | case3 d d' hnil =>
    refine iff_of_false Bool.false_ne_true ?_
    rintro ⟨i, a, b, -, ha, hb, -⟩
    cases d with
    | nil => simp at ha
    | cons x xs =>
      cases d' with
      | nil => simp at hb
      | cons y ys => exact hnil x xs y ys rfl rfl

/-- Settles O58: the deciding index lies below the length. -/
theorem digestOrderIsLexicographic : Obligations.DigestOrderIsLexicographic := by
  intro d d' hlen _
  rw [digestLt_iff_smallerAt]
  constructor
  · rintro ⟨i, hi⟩
    have hlt : i < 24 := hlen ▸ smallerAt_lt_length hi
    obtain ⟨a, b, hdecides⟩ := hi
    exact ⟨i, a, b, hlt, hdecides⟩
  · rintro ⟨i, a, b, -, hdecides⟩
    exact ⟨i, a, b, hdecides⟩

theorem hexDigit_mem (n : BitVec 4) : hexDigit n ∈ "0123456789ABCDEF".toList := by
  revert n
  decide

theorem hexDigit_injective : Function.Injective hexDigit := by
  unfold Function.Injective
  decide

theorem digestText_cons (b : Byte) (d : List Byte) : digestText (b :: d) =
    hexDigit (b.extractLsb' 4 4) :: hexDigit (b.extractLsb' 0 4) :: digestText d := rfl

theorem digestText_length (d : List Byte) : (digestText d).length = 2 * d.length := by
  simp [digestText, List.length_flatMap, Nat.mul_comm]

/-- A byte is determined by its two nibbles. -/
theorem byte_eq_of_nibbles {a b : Byte} (hhigh : a.extractLsb' 4 4 = b.extractLsb' 4 4)
    (hlow : a.extractLsb' 0 4 = b.extractLsb' 0 4) : a = b := by
  have hjoin (x : Byte) : x.extractLsb' 4 4 ++ x.extractLsb' 0 4 = x :=
    BitVec.extractLsb'_append_extractLsb' (w := 4) (len := 4)
  rw [← hjoin a, hhigh, hlow, hjoin b]

theorem digestText_injective : Function.Injective digestText := by
  intro d
  induction d with
  | nil =>
    rintro (_ | ⟨b, bs⟩) h
    · rfl
    · cases h
  | cons a as ih =>
    rintro (_ | ⟨b, bs⟩) h
    · cases h
    · rw [digestText_cons, digestText_cons, List.cons.injEq, List.cons.injEq] at h
      obtain ⟨hhigh, hlow, hrest⟩ := h
      rw [byte_eq_of_nibbles (hexDigit_injective hhigh) (hexDigit_injective hlow), ih hrest]

/-- Settles O59: two hexadecimal characters per byte, from which the byte is recovered. -/
theorem digestTextIsFaithful : Obligations.DigestTextIsFaithful := by
  refine ⟨fun d hlen => ⟨by rw [digestText_length, hlen], fun ch hch => ?_⟩, fun d d' h => digestText_injective h⟩
  obtain ⟨b, -, hch⟩ := List.mem_flatMap.mp hch
  rcases List.mem_pair.mp hch with rfl | rfl
  · exact hexDigit_mem _
  · exact hexDigit_mem _

theorem wordFromBytes_byteOf (w : Word) : wordFromBytes (byteOf w) = w :=
  word_ext fun _ hj => byteOf_wordFromBytes _ hj

/-- The eight bytes of a word are taken together as that word (R31). -/
theorem wordsOfBytes_wordToBytes_append (w : Word) (bs : List Byte) :
    wordsOfBytes (wordToBytes w ++ bs) = w :: wordsOfBytes bs :=
  congrArg (· :: wordsOfBytes bs) (wordFromBytes_byteOf w)

theorem wordsOfBytes_stateBytes (st : Words3) : wordsOfBytes (stateBytes st) = [st.w0, st.w1, st.w2] := by
  rw [stateBytes, List.append_assoc, ← List.append_nil (wordToBytes st.w2)]
  simp only [wordsOfBytes_wordToBytes_append]
  rfl

theorem digestFold_stateBytes (st : Words3) : digestFold (stateBytes st) = st.w0 ^^^ st.w1 ^^^ st.w2 := by
  simp [digestFold, wordsOfBytes_stateBytes]

/-- Settles O60: both widths use the fold, and the bytes of a state fold to the exclusive-or of its words. -/
theorem scalarHashFoldsTheWords : Obligations.ScalarHashFoldsTheWords := by
  intro st
  rw [← digestFold_stateBytes]
  exact ⟨rfl, rfl⟩

end Sys2Proof.Proofs
end

section
/-! SUPPORT. Illegal words (R63, R132): a word that decodes to a command is illegal for the block only by naming an
absent context, and `exec` refuses such a command with the code of an illegal word. -/

namespace Sys2Proof.Proofs
open Sys2Proof.Machine Sys2Proof.Laws

/-- The only clause of R63 that the fields of a row leave open is (c). -/
theorem ctxExists_eq_false_of_illegalFor {w : Word32} {p : List Word32} {i : Instr} {ngen : Nat}
    (h : RowFields w p i) (hillegal : IllegalFor ngen w) : i.ctxExists ngen = false := by
  cases i with
  | sboxInitDefault =>
    obtain ⟨hop, hctx, harg⟩ := h
    simp [IllegalFor, hop, hctx, harg] at hillegal
  | sboxInit passes seed =>
    obtain ⟨hop, hctx, _⟩ := h
    simp [IllegalFor, hop, hctx] at hillegal
  | genNew g passes tiger2 =>
    obtain ⟨hop, hbits, rfl, _⟩ := h
    simpa [IllegalFor, hop, extract_argOf, hbits, Instr.ctxExists, Instr.ctx?] using hillegal
  | updateByte g byte =>
    obtain ⟨hop, hbits, rfl, _⟩ := h
    simpa [IllegalFor, hop, extract_argOf, hbits, Instr.ctxExists, Instr.ctx?] using hillegal
  | update g data =>
    obtain ⟨hop, rfl, _⟩ := h
    simpa [IllegalFor, hop, Instr.ctxExists, Instr.ctx?] using hillegal
  | digestRead g idx =>
    obtain ⟨hop, hbits, rfl, _, hidx⟩ := h
    have hword : (argOf w).extractLsb' 0 5 = w.extractLsb' 0 5 := extract_argOf w (by decide)
    simp only [IllegalFor, hword, hidx.not_ge, and_false, or_false] at hillegal
    simpa [hop, extract_argOf, hbits, Instr.ctxExists, Instr.ctx?] using hillegal
  | genReset g | finalize g | status g =>
    obtain ⟨hop, harg, rfl⟩ := h
    simpa [IllegalFor, hop, harg, Instr.ctxExists, Instr.ctx?] using hillegal

theorem exec_of_illegalCommand {i : Instr} {s : State} (h : IllegalCommand s.ngen i) :
    exec i s = .next (s.raise .illegalCmd) := by
  obtain ⟨t, ht⟩ := exec_isNext i s
  cases exec_response ht with
  | illegal _ hraise => rw [ht, hraise]
  | refused hlegal => exact absurd h hlegal
  | ok hlegal => exact absurd h hlegal

/-- Settles O7: the decoder refuses the word, or it decodes to a command on an absent context, which `exec` refuses. -/
theorem illegalWordIsRefused : Obligations.IllegalWordIsRefused := by
  intro s head payload rest hfetch hillegal
  change step s = .next (State.raise { s with inp := rest } .illegalCmd)
  cases hdecode : decode head payload with
  | illegal why => simp [step, hfetch, hdecode]
  | command i =>
    have habsent := ctxExists_eq_false_of_illegalFor (decode_eq_command_iff.mp hdecode) hillegal
    rw [stepExecutesDecodedCommand s head payload rest i hfetch hdecode]
    exact exec_of_illegalCommand (.inl habsent)

end Sys2Proof.Proofs
end

section
/-! SUPPORT. `FAULT` blocks nothing (R18, R131): every operation but the status image treats two states that differ in
`FAULT` alone in the same way. -/

namespace Sys2Proof.Proofs
open Sys2Proof.Machine Sys2Proof.Laws

/-- The second state is the first but for `FAULT`. -/
def SameButFault (t t' : State) : Prop := ∃ f, t' = { t with fault := f }

/-- A check that does not read `FAULT` takes the same branch in both states. -/
theorem ite_sameButFault {p : Prop} [Decidable p] {a b a' b' : State} (ha : SameButFault a a')
    (hb : SameButFault b b') : SameButFault (if p then a else b) (if p then a' else b') := by
  split
  · exact ha
  · exact hb

section sameButFault
variable {s : State} (f : BitVec 4)

theorem raise_sameButFault (e : ErrCode) : SameButFault (s.raise e) (State.raise { s with fault := f } e) :=
  ⟨_, rfl⟩

theorem respond_sameButFault (data : List Word32) :
    SameButFault (s.respond data) (State.respond { s with fault := f } data) := ⟨_, rfl⟩

theorem setCtx_sameButFault (g : CtxNum) (c : GenCtx) (data : List Word32) :
    SameButFault ((s.setCtx g c).respond data) ((State.setCtx { s with fault := f } g c).respond data) := ⟨_, rfl⟩

/-- Selecting a context finds the same registers whatever `FAULT` holds. -/
theorem onCtx_sameButFault {g : CtxNum} {k k' : GenCtx → State} (hk : ∀ c, SameButFault (k c) (k' c)) :
    SameButFault (s.onCtx g k) (State.onCtx { s with fault := f } g k') := by
  rcases onCtx_cases s g k with ⟨hnone, h⟩ | ⟨c, hc, h⟩ <;> rw [h]
  · rw [onCtx_none (s := { s with fault := f }) hnone]
    exact raise_sameButFault f _
  · rw [onCtx_some (s := { s with fault := f }) hc]
    exact hk c

theorem acceptBytes_sameButFault (g : CtxNum) (data : List Byte) :
    SameButFault (s.acceptBytes g data) (State.acceptBytes { s with fault := f } g data) :=
  onCtx_sameButFault f fun _ => ite_sameButFault (raise_sameButFault f _) <|
    ite_sameButFault (raise_sameButFault f _) (setCtx_sameButFault f _ _ _)

/-- Every command but `STATUS` answers the same next state, up to `FAULT`. -/
theorem exec_sameButFault {i : Instr} {t t' : State} (hi : ∀ g, i ≠ .status g) (ht : exec i s = .next t)
    (ht' : exec i { s with fault := f } = .next t') : SameButFault t t' := by
  cases i <;> obtain rfl := Host.Outcome.next.inj ht <;> obtain rfl := Host.Outcome.next.inj ht'
  case sboxInitDefault => exact ⟨f, rfl⟩
  case sboxInit => exact ⟨f, rfl⟩
  case genNew => exact onCtx_sameButFault f fun c => setCtx_sameButFault f _ _ _
  case genReset => exact onCtx_sameButFault f fun c => setCtx_sameButFault f _ _ _
  case updateByte g byte => exact acceptBytes_sameButFault f g [byte]
  case update g data => exact acceptBytes_sameButFault f g data
  case finalize =>
    exact onCtx_sameButFault f fun c => ite_sameButFault (raise_sameButFault f _) <|
      ite_sameButFault (respond_sameButFault f _) (setCtx_sameButFault f _ _ _)
  case digestRead =>
    exact ite_sameButFault (raise_sameButFault f _) <| onCtx_sameButFault f fun c =>
      ite_sameButFault (respond_sameButFault f _) (raise_sameButFault f _)
  case status g => exact absurd rfl (hi g)

end sameButFault

/-- Settles O13: the command answers a next state from the other value of `FAULT` too, and it is the same but for
`FAULT`. -/
theorem faultRegisterBlocksNothing : Obligations.FaultRegisterBlocksNothing := by
  intro i s t f hi ht
  obtain ⟨t', ht'⟩ := exec_isNext i { s with fault := f }
  obtain ⟨f', rfl⟩ := exec_sameButFault f hi ht ht'
  exact ⟨f', ht'⟩

end Sys2Proof.Proofs
end

section
/-! SUPPORT. Which command is refused with which code (R132 to R136), said once, and what a refusal leaves. -/

namespace Sys2Proof.Proofs
open Sys2Proof.Machine Sys2Proof.Laws

/-- The code of a command on context `g`: `ERR_ILLEGAL_CMD` when the block has no such context, before every other
check of its registers (R136). -/
def refusalOnCtx (s : State) (g : CtxNum) (check : GenCtx → Option ErrCode) : Option ErrCode :=
  (s.ctx? g).elim (some .illegalCmd) check

/-- The checks of `UPDATE_BYTE` and `UPDATE` on an existing context (R133, R134). -/
def byteRefusal (s : State) (c : GenCtx) : Option ErrCode :=
  if s.sboxValid = false then some .sboxInvalid else if c.finalized = true then some .finalized else none

/-- The code with which the block refuses a command, by the priority of R136; none when the command is accepted. -/
def refusal? (s : State) : Instr → Option ErrCode
  | .sboxInitDefault => none
  | .sboxInit _ _ => none
  | .genNew g _ _ => refusalOnCtx s g fun _ => none
  | .genReset g => refusalOnCtx s g fun _ => none
  | .updateByte g _ => refusalOnCtx s g (byteRefusal s)
  | .update g _ => refusalOnCtx s g (byteRefusal s)
  | .finalize g => refusalOnCtx s g fun _ => if s.sboxValid = false then some .sboxInvalid else none
  | .digestRead g idx =>
    if 24 ≤ idx.toNat then some .illegalCmd
    else refusalOnCtx s g fun c => if c.finalized = false then some .noDigest else none
  | .status g => refusalOnCtx s g fun _ => none

/-- From `s` to `t` the block refuses with the code given, or with none given answers `OK` (R49, R131). -/
def Answers (s t : State) : Option ErrCode → Prop
  | some e => t = s.raise e
  | none => ∃ data, t.out = s.out ++ statusWord 0 :: data

theorem onCtx_answers {s : State} {g : CtxNum} {k : GenCtx → State} {check : GenCtx → Option ErrCode}
    (hk : ∀ c, Answers s (k c) (check c)) : Answers s (s.onCtx g k) (refusalOnCtx s g check) := by
  rcases onCtx_cases s g k with ⟨hnone, h⟩ | ⟨c, hc, h⟩ <;> rw [h, refusalOnCtx]
  · rw [hnone]
    rfl
  · rw [hc]
    exact hk c

theorem acceptBytes_answers (s : State) (g : CtxNum) (data : List Byte) :
    Answers s (s.acceptBytes g data) (refusalOnCtx s g (byteRefusal s)) := by
  refine onCtx_answers fun c => ?_
  unfold byteRefusal
  cases s.sboxValid with
  | false => rfl
  | true =>
    cases c.finalized with
    | true => rfl
    | false => exact ⟨[], rfl⟩

/-- Every command is refused with the code of `refusal?`, and accepted when that gives none. -/
theorem exec_answers {i : Instr} {s t : State} (h : exec i s = .next t) : Answers s t (refusal? s i) := by
  cases i <;> obtain rfl := Host.Outcome.next.inj h
  case sboxInitDefault => exact ⟨[], rfl⟩
  case sboxInit => exact ⟨[], rfl⟩
  case genNew => exact onCtx_answers fun c => ⟨[], rfl⟩
  case genReset => exact onCtx_answers fun c => ⟨[], rfl⟩
  case updateByte g byte => exact acceptBytes_answers s g [byte]
  case update g data => exact acceptBytes_answers s g data
  case finalize =>
    refine onCtx_answers fun c => ?_
    cases s.sboxValid with
    | false => rfl
    | true =>
      cases c.finalized with
      | true => exact ⟨_, rfl⟩
      | false => exact ⟨_, rfl⟩
  case digestRead g idx =>
    by_cases hidx : 24 ≤ idx.toNat
    · simp only [refusal?, hidx, if_true]
      rfl
    · simp only [refusal?, hidx, if_false]
      refine onCtx_answers fun c => ?_
      cases c.finalized with
      | true => exact ⟨_, rfl⟩
      | false => rfl
  case status => exact onCtx_answers fun c => ⟨_, rfl⟩

theorem raise_of_refusal? {i : Instr} {s t : State} {e : ErrCode} (h : exec i s = .next t)
    (hrefusal : refusal? s i = some e) : t = s.raise e := by
  have hanswer := exec_answers h
  rwa [hrefusal] at hanswer

/-- A command that answers a single status word with a non-zero code was refused with that code (R49). -/
theorem refusal?_of_out {i : Instr} {s t : State} {code : BitVec 4} (h : exec i s = .next t) (hcode : code ≠ 0)
    (hout : t.out = s.out ++ [statusWord code]) : ∃ e : ErrCode, refusal? s i = some e ∧ e.code = code := by
  have hcode_of {c : BitVec 4} {data : List Word32} (ht : t.out = s.out ++ statusWord c :: data) : c = code :=
    statusWord_injective (List.cons.inj (List.append_cancel_left (ht.symm.trans hout))).1
  have hanswer := exec_answers h
  cases hrefusal : refusal? s i with
  | none =>
    rw [hrefusal] at hanswer
    obtain ⟨data, hok⟩ := hanswer
    exact absurd (hcode_of hok).symm hcode
  | some e => exact ⟨e, rfl, hcode_of (raise_of_refusal? h hrefusal ▸ raise_out s e)⟩

/-- A code is answered exactly when the command is refused with it. -/
theorem out_eq_code_iff {i : Instr} {s t : State} (h : exec i s = .next t) (e : ErrCode) :
    t.out = s.out ++ [statusWord e.code] ↔ refusal? s i = some e := by
  refine ⟨fun hout => ?_, fun hrefusal => raise_of_refusal? h hrefusal ▸ raise_out s e⟩
  obtain ⟨e', hrefusal, he⟩ := refusal?_of_out h (code_ne_zero e) hout
  rw [hrefusal, code_injective he]

/-- Settles O12: the command was refused, and a refusal sets nothing but `FAULT`. -/
theorem refusedCommandChangesOnlyFault : Obligations.RefusedCommandChangesOnlyFault := by
  intro i s t code h hcode hout
  obtain ⟨e, hrefusal, rfl⟩ := refusal?_of_out h hcode hout
  exact raise_of_refusal? h hrefusal

/-! The conditions of the three codes that only an existing context can answer. -/

section codes
variable {s : State} {g : CtxNum} {check : GenCtx → Option ErrCode}

/-- A code other than `ERR_ILLEGAL_CMD` comes from the checks of an existing context. -/
theorem refusalOnCtx_eq_some_iff {e : ErrCode} (he : e ≠ .illegalCmd) :
    refusalOnCtx s g check = some e ↔ ∃ c, s.ctx? g = some c ∧ check c = some e := by
  unfold refusalOnCtx
  cases s.ctx? g with
  | none => simpa using he.symm
  | some c => simp

theorem byteRefusal_eq_sboxInvalid_iff (c : GenCtx) : byteRefusal s c = some .sboxInvalid ↔ s.sboxValid = false := by
  unfold byteRefusal
  split_ifs with hvalid hfinal <;> simp [hvalid]

theorem byteRefusal_eq_finalized_iff (c : GenCtx) :
    byteRefusal s c = some .finalized ↔ c.finalized = true ∧ s.sboxValid = true := by
  unfold byteRefusal
  split_ifs with hvalid hfinal <;> simp_all

theorem byteRefusal_ne_noDigest (c : GenCtx) : byteRefusal s c ≠ some .noDigest := by
  unfold byteRefusal
  split_ifs <;> simp

/-- A command's context exists exactly when the block has registers for it. -/
theorem ctxExists_iff_exists {i : Instr} (hi : i.ctx? = some g) :
    i.ctxExists s.ngen = true ↔ ∃ c, s.ctx? g = some c := by
  rw [ctxExists_iff_of_ctx? hi, ← ctx?_isSome_iff, Option.isSome_iff_exists]

/-- Without a table the commands that need one are refused with code 2 on every existing context (R133, R136). -/
theorem refusal?_eq_sboxInvalid_iff (i : Instr) : refusal? s i = some .sboxInvalid ↔
    ((∃ g b, i = .updateByte g b) ∨ (∃ g d, i = .update g d) ∨ ∃ g, i = .finalize g) ∧
      i.ctxExists s.ngen = true ∧ s.sboxValid = false := by
  cases i with
  | updateByte g b =>
    simp [refusal?, refusalOnCtx_eq_some_iff, byteRefusal_eq_sboxInvalid_iff,
      ctxExists_iff_exists (i := .updateByte g b) rfl]
  | update g d =>
    simp [refusal?, refusalOnCtx_eq_some_iff, byteRefusal_eq_sboxInvalid_iff,
      ctxExists_iff_exists (i := .update g d) rfl]
  | finalize g => simp [refusal?, refusalOnCtx_eq_some_iff, ctxExists_iff_exists (i := .finalize g) rfl]
  | digestRead g idx => simp [refusal?, refusalOnCtx_eq_some_iff, ite_eq_iff]
  | _ => simp [refusal?, refusalOnCtx_eq_some_iff]

/-- With a table the byte commands are refused with code 3 on a Finalized context (R134, R136). -/
theorem refusal?_eq_finalized_iff (i : Instr) : refusal? s i = some .finalized ↔
    ∃ g c, ((∃ b, i = .updateByte g b) ∨ ∃ d, i = .update g d) ∧ s.ctx? g = some c ∧ c.finalized = true ∧
      s.sboxValid = true := by
  cases i with
  | updateByte g b => simp [refusal?, refusalOnCtx_eq_some_iff, byteRefusal_eq_finalized_iff]
  | update g d => simp [refusal?, refusalOnCtx_eq_some_iff, byteRefusal_eq_finalized_iff]
  | digestRead g idx => simp [refusal?, refusalOnCtx_eq_some_iff, ite_eq_iff]
  | _ => simp [refusal?, refusalOnCtx_eq_some_iff]

/-- `DIGEST_READ` with a legal index is refused with code 4 on an Active context (R135, R136). -/
theorem refusal?_eq_noDigest_iff (i : Instr) : refusal? s i = some .noDigest ↔
    ∃ g idx c, i = .digestRead g idx ∧ idx.toNat < 24 ∧ s.ctx? g = some c ∧ c.finalized = false := by
  cases i with
  | updateByte g b => simp [refusal?, refusalOnCtx_eq_some_iff, byteRefusal_ne_noDigest]
  | update g d => simp [refusal?, refusalOnCtx_eq_some_iff, byteRefusal_ne_noDigest]
  | digestRead g idx => simp [refusal?, refusalOnCtx_eq_some_iff, ite_eq_iff]
  | _ => simp [refusal?, refusalOnCtx_eq_some_iff]

end codes

/-- Settles O15: code 2 is answered by the commands that `refusal?` refuses with it. -/
theorem sboxInvalidRaisedExactly : Obligations.SboxInvalidRaisedExactly := by
  intro i s t h
  exact (out_eq_code_iff h .sboxInvalid).trans (refusal?_eq_sboxInvalid_iff i)

/-- Settles O16: code 3 is answered by the commands that `refusal?` refuses with it, and a refusal keeps the
contexts. -/
theorem finalizedRaisedExactly : Obligations.FinalizedRaisedExactly := by
  intro i s t h
  have hcode := out_eq_code_iff h .finalized
  refine ⟨hcode.trans (refusal?_eq_finalized_iff i), fun hout => ?_⟩
  rw [raise_of_refusal? h (hcode.mp hout), raise_ctxs]

/-- Settles O17: code 4 is answered by the commands that `refusal?` refuses with it. -/
theorem noDigestRaisedExactly : Obligations.NoDigestRaisedExactly := by
  intro i s t h
  exact (out_eq_code_iff h .noDigest).trans (refusal?_eq_noDigest_iff i)

end Sys2Proof.Proofs
end

section
/-! SUPPORT. What `TBL`, `BUF` and `DIG` held after reset has no influence (R26 d, R151, R156): in a state that meets
the invariants every command reads only bytes that have been written since. -/

namespace Sys2Proof.Proofs
open Sys2Proof.Machine Sys2Proof.Laws

/-- A table that has been written in full is read as it was written, whatever `TBL` held after reset (R156 a). -/
theorem table_eq_of_written {m : Memory} (junk junk' : Nat → Byte) (hwf : m.wf 8192 = true) (h : m.Written 8192) :
    m.table junk = m.table junk' :=
  table_ext fun i hi => by
    rw [tableWordIsEightBytes junk m i hwf hi, tableWordIsEightBytes junk' m i hwf hi,
      read8_eq_of_written junk junk' h (by omega)]

/-- The same state after a reset that drew other unspecified content (R151). -/
def withDraw (e : Nat) (s : State) : State := { s with epoch := e }

@[simp] theorem withDraw_sboxValid (e : Nat) (s : State) : (withDraw e s).sboxValid = s.sboxValid := rfl

/-- A check that does not read the unspecified content takes the same branch whatever that was. -/
theorem ite_withDraw {e : Nat} {p : Prop} [Decidable p] {a b a' b' : State} (ha : p → a' = withDraw e a)
    (hb : ¬p → b' = withDraw e b) : (if p then a' else b') = withDraw e (if p then a else b) := by
  split
  case isTrue hp => exact ha hp
  case isFalse hp => exact hb hp

section withDraw
variable {s : State} (e : Nat) {g : CtxNum}

/-- Selecting a context finds the same registers whatever the draw was. -/
theorem onCtx_withDraw {k k' : GenCtx → State} (hk : ∀ c, s.ctx? g = some c → k' c = withDraw e (k c)) :
    (withDraw e s).onCtx g k' = withDraw e (s.onCtx g k) := by
  rcases onCtx_cases s g k with ⟨hnone, h⟩ | ⟨c, hc, h⟩ <;> rw [h]
  · exact onCtx_none (s := withDraw e s) hnone k'
  · exact (onCtx_some (s := withDraw e s) hc k').trans (hk c hc)

/-- A valid table is the same whatever the draw was (R156 a). -/
theorem table_withDraw (h : s.Inv) (hvalid : s.sboxValid = true) : (withDraw e s).table = s.table :=
  table_eq_of_written _ _ h.tbl_wf (h.tbl_written hvalid)

/-- The byte-store steps read the valid table and full buffers only (R26 d, R97). -/
theorem acceptBytes_withDraw (h : s.Inv) (data : List Byte) :
    (withDraw e s).acceptBytes g data = withDraw e (s.acceptBytes g data) := by
  refine onCtx_withDraw e fun c hc => ite_withDraw (fun _ => rfl) fun hvalid => ite_withDraw (fun _ => rfl) fun _ => ?_
  have hwritten := (h.ctxs_inv c (ctx?_mem hc)).buf_written
  rw [table_withDraw e h (by simpa using hvalid),
    storeBytes_eq_of_written s.table ((withDraw e s).bufJunk g) (s.bufJunk g) data hwritten]
  rfl

/-- A Finalized context answers the serialisation of its state (R26 c, R104, R117), and an Active one is padded from
written bytes before its block is read (R102, R105). -/
theorem execFinalize_withDraw (h : s.Inv) {t : State} (ht : execFinalize g s = .next t) :
    execFinalize g (withDraw e s) = .next (withDraw e t) := by
  obtain rfl := Host.Outcome.next.inj ht
  refine congrArg Host.Outcome.next <| onCtx_withDraw e fun c hc => ite_withDraw (fun _ => rfl) fun hvalid =>
    ite_withDraw (fun hfinal => ?_) fun _ => ?_
  · have hser := (h.ctxs_inv c (ctx?_mem hc)).finalized_dig hfinal
    rw [digest_of_serialised hser, digest_of_serialised hser]
    rfl
  · have hwritten := (h.ctxs_inv c (ctx?_mem hc)).buf_written
    obtain ⟨_, hseal⟩ := bufferIsReadOnlyWhereWritten s.table ((withDraw e s).bufJunk g) (s.bufJunk g) c [] hwritten
    have hdigest := digest_of_serialised (serialised_seal s.table (s.bufJunk g) (c.pad s.table (s.bufJunk g)))
    simp only [table_withDraw e h (by simpa using hvalid), hseal, hdigest]
    rfl

/-- A Finalized context holds all 24 bytes that `DIGEST_READ` can name (R26 c, R120). -/
theorem execDigestRead_withDraw (h : s.Inv) (idx : BitVec 5) {t : State} (ht : execDigestRead g idx s = .next t) :
    execDigestRead g idx (withDraw e s) = .next (withDraw e t) := by
  obtain rfl := Host.Outcome.next.inj ht
  refine congrArg Host.Outcome.next <| ite_withDraw (fun _ => rfl) fun hidx => onCtx_withDraw e fun c hc =>
    ite_withDraw (fun hfinal => ?_) fun _ => rfl
  have hser := (h.ctxs_inv c (ctx?_mem hc)).finalized_dig hfinal
  rw [read_of_serialised hser _ (Nat.not_le.mp hidx), read_of_serialised hser _ (Nat.not_le.mp hidx)]
  rfl

/-- Every command answers the same next state up to the draw itself. -/
theorem exec_withDraw (h : s.Inv) {i : Instr} {t : State} (ht : exec i s = .next t) :
    exec i (withDraw e s) = .next (withDraw e t) := by
  cases i
  case finalize => exact execFinalize_withDraw e h ht
  case digestRead => exact execDigestRead_withDraw e h _ ht
  all_goals obtain rfl := Host.Outcome.next.inj ht; refine congrArg Host.Outcome.next ?_
  case sboxInitDefault => rfl
  case sboxInit => rfl
  case genNew => exact onCtx_withDraw e fun _ _ => rfl
  case genReset => exact onCtx_withDraw e fun _ _ => rfl
  case updateByte byte => exact acceptBytes_withDraw e h [byte]
  case update data => exact acceptBytes_withDraw e h data
  case status => exact onCtx_withDraw e fun _ _ => rfl

end withDraw

/-- Settles O53: by the invariants every byte of `TBL`, `BUF` and `DIG` that a command reads has been written. -/
theorem nothingDependsOnTheResetDraw : Obligations.NothingDependsOnTheResetDraw := by
  intro i s t e h ht
  exact exec_withDraw e h ht

end Sys2Proof.Proofs
end
